-- ==== Sys2Proof/Word.lean ====
section
/-! DEFINITION. The widths of the Cardinal processor's values (00_scope.md rule R3, section 4): bytes of a memory image, 64-bit registers and data words, 32-bit instruction words, 5-bit register numbers, 16-bit immediate addresses. -/

namespace Sys2Proof

/-- A byte of a memory image (rule R29). -/
abbrev Byte := BitVec 8

/-- A general register or a data-memory cell: 64 bits (rules R10, R20). -/
abbrev Word := BitVec 64

/-- An instruction word: 32 bits (rule R1). -/
abbrev InstrWord := BitVec 32

/-- A register number, as the 5-bit fields rD, rA and rB hold it (rule R10). -/
abbrev RegNum := BitVec 5

/-- The 16-bit Immediate_address of an M-type word (rule R44). -/
abbrev Imm16 := BitVec 16

/-- The lane width the WW field selects, named by its assembly suffix (rule R41):
byte, half-word, word, double-word. -/
inductive Width where
  | b | h | w | d
  deriving DecidableEq, Repr

end Sys2Proof
end

