-- ==== Sys2Proof/Machine/Flags.lean ====
section
/-! DEFINITION. The machine has no flags, condition codes or predicates (10_state.md rule R16): the carry of an addition and the overflow of a subtraction are dropped. This file holds that one narrowing, which stands where another machine would compute flags. -/

namespace Sys2Proof.Machine

/-- Keep the low `size` bits of a result and drop the carry or overflow: "We ignore the generated
carry-bit", "We ignore any generated overflow bits" (rules R16, R66, R67). -/
def dropCarry (size n : Nat) : Nat := n % 2 ^ size

end Sys2Proof.Machine
end

