-- ==== Sys2Proof/Machine/Lanes.lean ====
section
/-! DEFINITION. Lanes of a 64-bit register (00_scope.md rules R5 to R8) and the ways an instruction works on them. A lane is a natural number below 2^size; results are computed exactly and narrowed when they are packed. -/

namespace Sys2Proof

/-- The lane width in bits, size = 8 << WW (rule R41). -/
def Width.size : Width → Nat
  | .b => 8
  | .h => 16
  | .w => 32
  | .d => 64

/-- The number of lanes, n = 64 / size (rule R41). -/
def Width.lanes (ww : Width) : Nat := 64 / ww.size

end Sys2Proof

namespace Sys2Proof.Machine

/-- Lane k of v, counted from the most significant end: (v >> (64 - (k+1)*size)) mod 2^size
(rule R5). -/
def lane (v : Word) (size k : Nat) : Nat := (v.toNat >>> (64 - (k + 1) * size)) % 2 ^ size

/-- The number whose n lanes, most significant first, are f 0 to f (n-1). -/
def packNat (size : Nat) (f : Nat → Nat) : Nat → Nat
  | 0 => 0
  | n + 1 => packNat size f n * 2 ^ size + f n % 2 ^ size

/-- `pack(size, [f 0, f 1, ...])`: the 64-bit value whose lane k is f k, narrowed to size bits
(41_add_sub_multiply.md). -/
def pack (size : Nat) (f : Nat → Nat) : Word := BitVec.ofNat 64 (packNat size f (64 / size))

/-- Every lane of a through f, in place. -/
def mapLanes (ww : Width) (f : Nat → Nat) (a : Word) : Word :=
  pack ww.size (fun k => f (lane a ww.size k))

/-- Corresponding lanes of a and b through f, in place. -/
def zipLanes (ww : Width) (f : Nat → Nat → Nat) (a b : Word) : Word :=
  pack ww.size (fun k => f (lane a ww.size k) (lane b ww.size k))

/-- Result lane j, of double width, from the even lanes 2j: the more significant half of each pair
(rules R7, R8). -/
def zipEven (ww : Width) (f : Nat → Nat → Nat) (a b : Word) : Word :=
  pack (2 * ww.size) (fun j => f (lane a ww.size (2 * j)) (lane b ww.size (2 * j)))

/-- Result lane j, of double width, from the odd lanes 2j + 1: the less significant half of each
pair (rules R7, R8). -/
def zipOdd (ww : Width) (f : Nat → Nat → Nat) (a b : Word) : Word :=
  pack (2 * ww.size) (fun j => f (lane a ww.size (2 * j + 1)) (lane b ww.size (2 * j + 1)))

end Sys2Proof.Machine
end

