-- ==== Sys2Proof/Syntax.lean ====
section
/-! DEFINITION. The 23 instructions of the Cardinal ISA, one constructor per row of opcode_table.json, in its order (30_encoding.md rules R38, R39). Operands stand in the assembler's order (rule R52): the width suffix, rD, rA, rB. -/

namespace Sys2Proof

/-- An instruction. `ww` is the WW field (rule R41); in vld, vsd, vbeq and vbneq the register is
the rD field, which vsd stores and the branches test (rule R37). -/
inductive Instr where
  | vand (ww : Width) (rD rA rB : RegNum)
  | vor (ww : Width) (rD rA rB : RegNum)
  | vxor (ww : Width) (rD rA rB : RegNum)
  | vnot (ww : Width) (rD rA : RegNum)
  | vmov (ww : Width) (rD rA : RegNum)
  | vadd (ww : Width) (rD rA rB : RegNum)
  | vsub (ww : Width) (rD rA rB : RegNum)
  | vmuleu (ww : Width) (rD rA rB : RegNum)
  | vmulou (ww : Width) (rD rA rB : RegNum)
  | vsll (ww : Width) (rD rA rB : RegNum)
  | vsrl (ww : Width) (rD rA rB : RegNum)
  | vsra (ww : Width) (rD rA rB : RegNum)
  | vrtth (ww : Width) (rD rA : RegNum)
  | vdivu (ww : Width) (rD rA rB : RegNum)
  | vmodu (ww : Width) (rD rA rB : RegNum)
  | vsqeu (ww : Width) (rD rA : RegNum)
  | vsqou (ww : Width) (rD rA : RegNum)
  | vsqrtu (ww : Width) (rD rA : RegNum)
  | vld (rD : RegNum) (imm : Imm16)
  | vsd (rD : RegNum) (imm : Imm16)
  | vbeq (rD : RegNum) (imm : Imm16)
  | vbneq (rD : RegNum) (imm : Imm16)
  | vnop
  deriving DecidableEq, Repr

end Sys2Proof
end

