-- ==== Sys2Proof/WellFormed.lean ====
section
/-! DEFINITION. Which instruction terms an instruction word can spell. Register numbers and immediates are exactly the encodable ones by type, so the one check is the width of vmuleu, vmulou, vsqeu and vsqou: WW = 11 is reserved there (30_encoding.md rule R50). -/

namespace Sys2Proof

/-- The widths defined for the four double-width instructions: 00, 01 and 10 (rule R50). -/
def Width.hasDouble : Width → Bool
  | .b | .h | .w => true
  | .d => false

/-- The instruction has an encoding (rule R50). -/
def Instr.wellFormed : Instr → Bool
  | .vmuleu ww _ _ _ => ww.hasDouble
  | .vmulou ww _ _ _ => ww.hasDouble
  | .vsqeu ww _ _ => ww.hasDouble
  | .vsqou ww _ _ => ww.hasDouble
  | .vand .. => true
  | .vor .. => true
  | .vxor .. => true
  | .vnot .. => true
  | .vmov .. => true
  | .vadd .. => true
  | .vsub .. => true
  | .vsll .. => true
  | .vsrl .. => true
  | .vsra .. => true
  | .vrtth .. => true
  | .vdivu .. => true
  | .vmodu .. => true
  | .vsqrtu .. => true
  | .vld .. => true
  | .vsd .. => true
  | .vbeq .. => true
  | .vbneq .. => true
  | .vnop => true

end Sys2Proof
end

