-- ==== Sys2Proof/Decode.lean ====
section
/-! DEFINITION. Decoding an instruction word, total, rejecting by name (30_encoding.md rules R35 to R50), the encoder from the same layouts, and the match and mask table of rule R46. -/

namespace Sys2Proof

/-- Why a word is no instruction. Each of them is the model-level fault IllegalInstruction when
the word is executed (rule R46); the names say which rule reserves it. -/
inductive DecodeError where
  /-- The major opcode is unassigned (rule R47). -/
  | reservedOpcode
  /-- The function code of an R-type word is unassigned (rule R48). -/
  | reservedFunct
  /-- A field the manual prints as zeros is not zero (rule R49). -/
  | nonzeroField
  /-- WW = 11 on vmuleu, vmulou, vsqeu or vsqou (rule R50). -/
  | reservedWidth
  /-- The bytes given are not the four bytes of one instruction word (rule R1). -/
  | notOneWord
  deriving DecidableEq, Repr

/-! ### Fields (rules R36, R37) -/

/-- The major opcode, w[31:26]. -/
def fieldOp (w : InstrWord) : BitVec 6 := w.extractLsb' 26 6

/-- The rD field, w[25:21]. -/
def fieldRD (w : InstrWord) : RegNum := w.extractLsb' 21 5

/-- The rA field, w[20:16]; the zero field of an M-type word. -/
def fieldRA (w : InstrWord) : RegNum := w.extractLsb' 16 5

/-- The rB field, w[15:11]. -/
def fieldRB (w : InstrWord) : RegNum := w.extractLsb' 11 5

/-- The three bits printed as zeros in an R-type word, w[10:8] (rule R40). -/
def fieldZero (w : InstrWord) : BitVec 3 := w.extractLsb' 8 3

/-- The WW field, w[7:6] (rule R41). -/
def fieldWW (w : InstrWord) : BitVec 2 := w.extractLsb' 6 2

/-- The function code, w[5:0] (rule R39). -/
def fieldFunct (w : InstrWord) : BitVec 6 := w.extractLsb' 0 6

/-- Immediate_address, w[15:0] (rule R44). -/
def fieldImm (w : InstrWord) : Imm16 := w.extractLsb' 0 16

/-- The width a WW value selects (rule R41). -/
def Width.ofBits (b : BitVec 2) : Width :=
  if b = 0b00#2 then .b else if b = 0b01#2 then .h else if b = 0b10#2 then .w else .d

/-- The WW value of a width (rule R41). -/
def Width.bits : Width → BitVec 2
  | .b => 0b00#2
  | .h => 0b01#2
  | .w => 0b10#2
  | .d => 0b11#2

/-! ### Decoding (rule R46) -/

/-- A three-operand R-type word: only w[10:8] must be zero (rule R40). -/
def threeOperand (w : InstrWord) (i : Instr) : Except DecodeError Instr :=
  if fieldZero w = 0#3 then .ok i else .error .nonzeroField

/-- A unary R-type word: w[10:8] and the rB field must be zero (rules R40, R42). -/
def oneSource (w : InstrWord) (i : Instr) : Except DecodeError Instr :=
  if fieldZero w = 0#3 ∧ fieldRB w = 0#5 then .ok i else .error .nonzeroField

/-- An M-type word: w[20:16] must be zero (rule R43). -/
def mType (w : InstrWord) (i : Instr) : Except DecodeError Instr :=
  if fieldRA w = 0#5 then .ok i else .error .nonzeroField

/-- The double-width instructions have no WW = 11 form (rule R50). -/
def notDouble (w : InstrWord) (r : Except DecodeError Instr) : Except DecodeError Instr :=
  if fieldWW w = 0b11#2 then .error .reservedWidth else r

/-- The eighteen instructions of major opcode 101010, selected by the function code (rule R39). -/
def decodeRType (w : InstrWord) : Except DecodeError Instr :=
  match (fieldFunct w).toNat with
  | 1 => threeOperand w (.vand (Width.ofBits (fieldWW w)) (fieldRD w) (fieldRA w) (fieldRB w))
  | 2 => threeOperand w (.vor (Width.ofBits (fieldWW w)) (fieldRD w) (fieldRA w) (fieldRB w))
  | 3 => threeOperand w (.vxor (Width.ofBits (fieldWW w)) (fieldRD w) (fieldRA w) (fieldRB w))
  | 4 => oneSource w (.vnot (Width.ofBits (fieldWW w)) (fieldRD w) (fieldRA w))
  | 5 => oneSource w (.vmov (Width.ofBits (fieldWW w)) (fieldRD w) (fieldRA w))
  | 6 => threeOperand w (.vadd (Width.ofBits (fieldWW w)) (fieldRD w) (fieldRA w) (fieldRB w))
  | 7 => threeOperand w (.vsub (Width.ofBits (fieldWW w)) (fieldRD w) (fieldRA w) (fieldRB w))
  | 8 => notDouble w
      (threeOperand w (.vmuleu (Width.ofBits (fieldWW w)) (fieldRD w) (fieldRA w) (fieldRB w)))
  | 9 => notDouble w
      (threeOperand w (.vmulou (Width.ofBits (fieldWW w)) (fieldRD w) (fieldRA w) (fieldRB w)))
  | 10 => threeOperand w (.vsll (Width.ofBits (fieldWW w)) (fieldRD w) (fieldRA w) (fieldRB w))
  | 11 => threeOperand w (.vsrl (Width.ofBits (fieldWW w)) (fieldRD w) (fieldRA w) (fieldRB w))
  | 12 => threeOperand w (.vsra (Width.ofBits (fieldWW w)) (fieldRD w) (fieldRA w) (fieldRB w))
  | 13 => oneSource w (.vrtth (Width.ofBits (fieldWW w)) (fieldRD w) (fieldRA w))
  | 14 => threeOperand w (.vdivu (Width.ofBits (fieldWW w)) (fieldRD w) (fieldRA w) (fieldRB w))
  | 15 => threeOperand w (.vmodu (Width.ofBits (fieldWW w)) (fieldRD w) (fieldRA w) (fieldRB w))
  | 16 => notDouble w (oneSource w (.vsqeu (Width.ofBits (fieldWW w)) (fieldRD w) (fieldRA w)))
  | 17 => notDouble w (oneSource w (.vsqou (Width.ofBits (fieldWW w)) (fieldRD w) (fieldRA w)))
  | 18 => oneSource w (.vsqrtu (Width.ofBits (fieldWW w)) (fieldRD w) (fieldRA w))
  | _ => .error .reservedFunct

/-- Decode a 32-bit instruction word (rule R46). -/
def decode (w : InstrWord) : Except DecodeError Instr :=
  match (fieldOp w).toNat with
  | 0b100000 => mType w (.vld (fieldRD w) (fieldImm w))
  | 0b100001 => mType w (.vsd (fieldRD w) (fieldImm w))
  | 0b100010 => mType w (.vbeq (fieldRD w) (fieldImm w))
  | 0b100011 => mType w (.vbneq (fieldRD w) (fieldImm w))
  | 0b101010 => decodeRType w
  | 0b111100 => if w = 0xF0000000#32 then .ok .vnop else .error .nonzeroField
  | _ => .error .reservedOpcode

/-- The four bytes of an instruction word, most significant first, which holds the opcode
(rule R29). -/
def wordBytes (w : InstrWord) : List Byte :=
  [w.extractLsb' 24 8, w.extractLsb' 16 8, w.extractLsb' 8 8, w.extractLsb' 0 8]

/-- Decode any bytes: an instruction is exactly four, most significant first (rules R1, R29). -/
def decodeBytes : List Byte → Except DecodeError Instr
  | [b0, b1, b2, b3] => decode (b0 ++ b1 ++ b2 ++ b3)
  | _ => .error .notOneWord

/-- The instruction the decoder reads from a table row's word `w` of `nbits` bits, bit 0 the least
significant; bits above `nbits` are 0. -/
def decodeTableWord (nbits w : Nat) : Option Instr :=
  (decodeBytes (wordBytes (BitVec.ofNat 32 (w % 2 ^ nbits)))).toOption

/-! ### Encoding (the layouts of rules R36 and R37, the codes of rules R38 and R39) -/

/-- An R-type word: 101010 | rD | rA | rB | 000 | WW | funct (rule R36). -/
def rWord (rD rA rB : RegNum) (ww : Width) (funct : BitVec 6) : InstrWord :=
  0b101010#6 ++ rD ++ rA ++ rB ++ 0#3 ++ ww.bits ++ funct

/-- An M-type word: opcode | rD | 00000 | Immediate_address (rule R37). -/
def mWord (op : BitVec 6) (rD : RegNum) (imm : Imm16) : InstrWord :=
  op ++ rD ++ 0#5 ++ imm

/-- The word of an instruction. It is meant for well-formed instructions; for the WW = 11 form of
a double-width instruction it is the reserved word of rule R50. -/
def encode : Instr → InstrWord
  | .vand ww rD rA rB => rWord rD rA rB ww 0b000001#6
  | .vor ww rD rA rB => rWord rD rA rB ww 0b000010#6
  | .vxor ww rD rA rB => rWord rD rA rB ww 0b000011#6
  | .vnot ww rD rA => rWord rD rA 0#5 ww 0b000100#6
  | .vmov ww rD rA => rWord rD rA 0#5 ww 0b000101#6
  | .vadd ww rD rA rB => rWord rD rA rB ww 0b000110#6
  | .vsub ww rD rA rB => rWord rD rA rB ww 0b000111#6
  | .vmuleu ww rD rA rB => rWord rD rA rB ww 0b001000#6
  | .vmulou ww rD rA rB => rWord rD rA rB ww 0b001001#6
  | .vsll ww rD rA rB => rWord rD rA rB ww 0b001010#6
  | .vsrl ww rD rA rB => rWord rD rA rB ww 0b001011#6
  | .vsra ww rD rA rB => rWord rD rA rB ww 0b001100#6
  | .vrtth ww rD rA => rWord rD rA 0#5 ww 0b001101#6
  | .vdivu ww rD rA rB => rWord rD rA rB ww 0b001110#6
  | .vmodu ww rD rA rB => rWord rD rA rB ww 0b001111#6
  | .vsqeu ww rD rA => rWord rD rA 0#5 ww 0b010000#6
  | .vsqou ww rD rA => rWord rD rA 0#5 ww 0b010001#6
  | .vsqrtu ww rD rA => rWord rD rA 0#5 ww 0b010010#6
  | .vld rD imm => mWord 0b100000#6 rD imm
  | .vsd rD imm => mWord 0b100001#6 rD imm
  | .vbeq rD imm => mWord 0b100010#6 rD imm
  | .vbneq rD imm => mWord 0b100011#6 rD imm
  | .vnop => 0xF0000000#32

/-! ### The match and mask table of rule R46 -/

/-- A row of the match and mask table: the fixed bits, their positions, and whether WW = 11 is
excluded ("extra constraint"). -/
structure Row where
  mnemonic : String
  pattern : InstrWord
  mask : InstrWord
  noDouble : Bool
  deriving DecidableEq, Repr

/-- The rows of major opcode 101010 with two source registers. -/
def rowsThreeOperand : List Row := [
  ⟨"vand", 0xA8000001#32, 0xFC00073F#32, false⟩,
  ⟨"vor", 0xA8000002#32, 0xFC00073F#32, false⟩,
  ⟨"vxor", 0xA8000003#32, 0xFC00073F#32, false⟩,
  ⟨"vadd", 0xA8000006#32, 0xFC00073F#32, false⟩,
  ⟨"vsub", 0xA8000007#32, 0xFC00073F#32, false⟩,
  ⟨"vmuleu", 0xA8000008#32, 0xFC00073F#32, true⟩,
  ⟨"vmulou", 0xA8000009#32, 0xFC00073F#32, true⟩,
  ⟨"vsll", 0xA800000A#32, 0xFC00073F#32, false⟩,
  ⟨"vsrl", 0xA800000B#32, 0xFC00073F#32, false⟩,
  ⟨"vsra", 0xA800000C#32, 0xFC00073F#32, false⟩,
  ⟨"vdivu", 0xA800000E#32, 0xFC00073F#32, false⟩,
  ⟨"vmodu", 0xA800000F#32, 0xFC00073F#32, false⟩]

/-- The rows of major opcode 101010 with one source register. -/
def rowsOneSource : List Row := [
  ⟨"vnot", 0xA8000004#32, 0xFC00FF3F#32, false⟩,
  ⟨"vmov", 0xA8000005#32, 0xFC00FF3F#32, false⟩,
  ⟨"vrtth", 0xA800000D#32, 0xFC00FF3F#32, false⟩,
  ⟨"vsqeu", 0xA8000010#32, 0xFC00FF3F#32, true⟩,
  ⟨"vsqou", 0xA8000011#32, 0xFC00FF3F#32, true⟩,
  ⟨"vsqrtu", 0xA8000012#32, 0xFC00FF3F#32, false⟩]

/-- The rows of the M-type instructions and of vnop. -/
def rowsOther : List Row := [
  ⟨"vld", 0x80000000#32, 0xFC1F0000#32, false⟩,
  ⟨"vsd", 0x84000000#32, 0xFC1F0000#32, false⟩,
  ⟨"vbeq", 0x88000000#32, 0xFC1F0000#32, false⟩,
  ⟨"vbneq", 0x8C000000#32, 0xFC1F0000#32, false⟩,
  ⟨"vnop", 0xF0000000#32, 0xFFFFFFFF#32, false⟩]

/-- The whole table of rule R46. -/
def opcodeRows : List Row := rowsThreeOperand ++ rowsOneSource ++ rowsOther

/-- A word matches a row: the masked bits and the row's constraint (rule R46). -/
def Row.admits (r : Row) (w : InstrWord) : Bool :=
  w &&& r.mask == r.pattern && !(r.noDouble && fieldWW w == 0b11#2)

end Sys2Proof
end

