-- ==== Sys2Proof/Config.lean ====
section
/-! DEFINITION. What an implementation fixes (the OPEN parameters of 00_scope.md section 4 and of the second table of 92_eei_decisions.md) and the free values, which are opaque: no proof can see what they are.

The parameters are plain data, and State carries one Config (field `cfg`) that no step changes, so that a statement about every state is a statement about every value of every parameter (log 1). -/

namespace Sys2Proof

/-- PC_STEP, the distance between two consecutive instruction addresses: 1 (the pc counts
instructions) or 4 (the pc is a byte address). Rule R15, decision D4. -/
inductive PcStep where
  | one | four
  deriving DecidableEq, Repr

/-- What a read of a register that no instruction of the run has written answers (rule R114, decision
D21; log 4). It never stops the run.
`value`: the value the register holds since reset (log 3; DESIGN CHOICE, unsafe: the spec never
assumes one).
`draw`: an arbitrary value, fresh at each read, which the spec allows (safe). -/
inductive UnwrittenReg where
  | value | draw
  deriving DecidableEq, Repr

/-- How a vld from a data word that neither the host image nor a store has given a value is
treated (rule R114): `draw` an arbitrary value, or `fault` with DataAccessFault. Both are safe. -/
inductive UnwrittenData where
  | draw | fault
  deriving DecidableEq, Repr

/-- The OPEN parameters of the machine, fixed for a run. -/
structure Config where
  /-- R0_ZERO: register 0 reads as zero and ignores writes (rule R12, D2). -/
  r0Zero : Bool
  /-- PC_STEP (rule R15, D4). -/
  pcStep : PcStep
  /-- DMEM_WORDS, the number of implemented data words, 1 to 65536 (rule R24, D7). -/
  dmemWords : Nat
  /-- Treatment of a never-written register (rule R114, D21). -/
  unwrittenReg : UnwrittenReg
  /-- Treatment of a never-written data word (rule R114). -/
  unwrittenData : UnwrittenData
  deriving DecidableEq, Repr

/-- The parameters at reset: the spec's defaults for R0_ZERO, PC_STEP and DMEM_WORDS (logs 2, 9,
14), and this model's choices for values nothing has written (logs 4, 5). -/
def Config.atReset : Config where
  r0Zero := false
  pcStep := .one
  dmemWords := 65536
  unwrittenReg := .value
  unwrittenData := .draw

/-- DIVU_ZERO(size, u): what vdivu writes to a lane whose divisor is zero (rule R77, D13). Free. -/
opaque Config.divuZero (size : Nat) (u : BitVec size) : BitVec size

/-- MODU_ZERO(size, u): what vmodu writes to a lane whose divisor is zero (rule R77, D13). Free. -/
opaque Config.moduZero (size : Nat) (u : BitVec size) : BitVec size

/-- The value of the n-th draw of a run (rule R114). Free. -/
opaque Config.drawnWord (n : Nat) : Word

end Sys2Proof
end

