-- ==== Sys2Proof/Machine/State.lean ====
section
/-! DEFINITION. The state of the machine (10_state.md, 20_memory.md), the ways a step can stop, and the state after reset (10_state.md rule R19, 70_reset_and_hazards.md rule R120). Plain data throughout. -/

namespace Sys2Proof.Machine

/-- The program counter during an instruction (rules R13, R15): a 32-bit instruction address, or
`past`, which the sequential advance leaves when pc + PC_STEP reaches 2^32. The advance does not
wrap and no instruction stands there (D27, log 10). -/
inductive Pc where
  | at (a : BitVec 32)
  | past
  deriving DecidableEq, Repr

/-- A memory: its cells in rising order of address, each address once. An address that is not
listed has NO value (log 5), so no cell can equal what an unlisted address reads as. -/
abbrev Memory := List Host.Cell

/-- The model-level faults: those of rule R103 but UnwrittenRegisterRead, in whose place the model
takes a value (log 4). Each stops the run, and the faulting instruction has had no effect
(rule R102). All are safe: the model declines to say what the chip does. -/
inductive Fault where
  /-- Raised by the fetch when the pc holds an address without an instruction that is not END_PC
  (rule R26). Safe. -/
  | fetchFault (a : Nat)
  /-- Raised by the step when the fetched word is reserved (rules R46 to R50), and by the four
  double-width meanings for their WW = 11 form (rule R50). Safe. -/
  | illegalInstruction (w : InstrWord)
  /-- Raised by vld and vsd when EA >= DMEM_WORDS (rule R24), and by vld on a word without a
  value where the parameter Config.unwrittenData is `fault` (rule R114). Safe. -/
  | dataAccessFault (ea : BitVec 32)
  deriving DecidableEq, Repr

/-- The stops that are no fault. -/
inductive Refusal where
  /-- Raised by an arm of `exec` for an instruction that has no meaning yet; no arm does. Safe. -/
  | notModelled (mnemonic : String)
  /-- Raised by the step, before any fetch, when the pc is END_PC: the run has ended successfully
  and the state the step was given is its final state (rule R126; log 15). Safe. -/
  | runEnded
  deriving DecidableEq, Repr

/-- Everything the machine holds. -/
structure State where
  /-- The OPEN parameters; no step changes them (log 1). -/
  cfg : Config
  /-- x[0] to x[31] (rule R10). -/
  regs : Vector Word 32
  /-- Which registers an instruction of this run has written (rules R103, R114; log 26). -/
  written : Vector Bool 32
  /-- The program counter (rule R13). -/
  pc : Pc
  /-- The data memory as bytes, word a at 8a to 8a + 7, most significant first (rules R20, R29). -/
  dmem : Memory
  /-- The instruction memory as bytes, word k at 4k to 4k + 3, most significant first (rules R25,
  R29); no instruction writes it (rule R27). -/
  imem : Memory
  /-- IMEM_WORDS, the length N of the instruction image (rules R26, R124). -/
  imemWords : Nat
  /-- How many values have been drawn so far (rule R114; log 6). The model's own field. -/
  draws : Nat
  deriving DecidableEq, Repr

/-- What a fetch answers. -/
inductive Fetched where
  | word (w : InstrWord)
  | endOfRun
  | noInstruction (a : Nat)
  deriving DecidableEq, Repr

/-- The outcome of an instruction or a step. -/
abbrev Result := Host.Outcome State Fault Refusal

/-- The machine right after reset (rules R19, R120): pc = RESET_PC = 0, no register written, no data
word with a value, the empty instruction image. The registers' value is this model's (log 3). -/
def State.reset : State where
  cfg := Config.atReset
  regs := Vector.replicate 32 0#64
  written := Vector.replicate 32 false
  pc := .at 0#32
  dmem := []
  imem := []
  imemWords := 0
  draws := 0

end Sys2Proof.Machine
end

