-- ==== Sys2Proof/Machine/Ops.lean ====
section
/-! DEFINITION. The named operations over the pc, memories and registers, the fetch, and `raise`, the one operation by which an instruction stops the run. The spec has no exception entry and no return from one: no handler, vector, saved pc or cause exists (60_exceptions.md rules R100, R102, R107). -/

namespace Sys2Proof

/-- PC_STEP as a number (rule R15). -/
def PcStep.toNat : PcStep → Nat
  | .one => 1
  | .four => 4

end Sys2Proof

namespace Sys2Proof.Machine

/-- `raise F(info)`: the instruction has no effect and the run stops in F (rule R102). -/
def raise (f : Fault) : Result := .fault f

/-! ### Program counter (rules R13 to R15) -/

/-- The instruction address the pc holds; `past` is 2^32, the first address without an instruction. -/
def Pc.toNat : Pc → Nat
  | .at a => a.toNat
  | .past => 2 ^ 32

/-- The sequential advance pc + PC_STEP, which does not wrap at 2^32 (rule R15, D27). -/
def Pc.next (p : Pc) (step : PcStep) : Pc :=
  if p.toNat + step.toNat < 2 ^ 32 then .at (BitVec.ofNat 32 (p.toNat + step.toNat)) else .past

/-- The absolute branch target, the immediate zero-extended to the pc's width (rules R14, R86). -/
def branchTarget (imm : Imm16) : Pc := .at (imm.setWidth 32)

/-- `pc <- pc + PC_STEP` (rule R15). -/
def State.advance (s : State) : State := { s with pc := s.pc.next s.cfg.pcStep }

/-- `pc <- zext_32(Immediate_address)` (rule R14). -/
def State.branchTo (s : State) (imm : Imm16) : State := { s with pc := branchTarget imm }

/-! ### Memories: bytes in canonical form, wider values most significant byte first (rule R29) -/

/-- The canonical form: addresses strictly rising. An unlisted address has no value, so no entry
can equal what it reads as. -/
abbrev Memory.wf (m : Memory) : Prop := m.Pairwise (fun c d => c.1 < d.1)

/-- The byte at an address; an unlisted address has none. -/
def Memory.readByte : Memory → Nat → Option Byte
  | [], _ => none
  | (a, b) :: m, x => if a = x then some b else Memory.readByte m x

/-- Give an address a byte, keeping the canonical form. -/
def Memory.writeByte : Memory → Nat → Byte → Memory
  | [], x, v => [(x, v)]
  | (a, b) :: m, x, v =>
    if x < a then (x, v) :: (a, b) :: m
    else if x = a then (x, v) :: m
    else (a, b) :: Memory.writeByte m x v

/-- The value of the `n` bytes from `x`, the most significant first; none if one has no value. -/
def Memory.readBE (m : Memory) (x : Nat) : Nat → Option Nat
  | 0 => some 0
  | n + 1 =>
    match Memory.readBE m x n, m.readByte (x + n) with
    | some hi, some lo => some (hi * 256 + lo.toNat)
    | _, _ => none

/-- Write `v` to the `n` bytes from `x`, the most significant first. -/
def Memory.writeBE (m : Memory) (x : Nat) : Nat → Nat → Memory
  | 0, _ => m
  | n + 1, v => (Memory.writeBE m x n (v / 256)).writeByte (x + n) (BitVec.ofNat 8 v)

/-- DMEM[a], if it has a value: data word a is bytes 8a to 8a + 7 (rules R20, R29). This is also
how the host reads the memory back after a run (rule R127). -/
def State.dataWord (s : State) (a : Nat) : Option Word :=
  (s.dmem.readBE (8 * a) 8).map (BitVec.ofNat 64)

/-- `DMEM[a] <- v` (rule R20). -/
def State.storeWord (s : State) (a : Nat) (v : Word) : State :=
  { s with dmem := s.dmem.writeBE (8 * a) 8 v.toNat }

/-- Instruction word k, if the image supplies it: bytes 4k to 4k + 3 (rules R26, R29). -/
def State.instrWord (s : State) (k : Nat) : Option InstrWord :=
  (s.imem.readBE (4 * k) 4).map (BitVec.ofNat 32)

/-! ### Registers (rules R10 to R12, R114) -/

/-- Register i reads as zero and ignores writes: register 0 under R0_ZERO (rule R12). -/
def State.hardwired (s : State) (i : RegNum) : Bool := s.cfg.r0Zero && i == 0#5

/-- The 64 bits register i holds. -/
def State.reg (s : State) (i : RegNum) : Word := s.regs[i.toNat]'i.isLt

/-- Whether an instruction of this run has written register i (rules R103, R114). -/
def State.isWritten (s : State) (i : RegNum) : Bool := s.written[i.toNat]'i.isLt

/-- An arbitrary value, fresh at each draw (rule R114). -/
def State.draw (s : State) : Word × State :=
  (Config.drawnWord s.draws, { s with draws := s.draws + 1 })

/-- `x[i]` as a source: zero for a hardwired register (rule R12), the register's value once it has
been written, and otherwise what the parameter for never-written registers says (rule R114). A read
never stops the run (log 4). -/
def State.readReg (s : State) (i : RegNum) : Word × State :=
  if s.hardwired i then (0#64, s)
  else if s.isWritten i then (s.reg i, s)
  else match s.cfg.unwrittenReg with
    | .value => (s.reg i, s)
    | .draw => s.draw

/-- `x[i] <- v`: all 64 bits; discarded for a hardwired register (rules R11, R12). -/
def State.writeReg (s : State) (i : RegNum) (v : Word) : State :=
  if s.hardwired i then s
  else { s with regs := s.regs.set i.toNat v i.isLt, written := s.written.set i.toNat true i.isLt }

/-! ### Fetch (rules R26, R126) -/

/-- END_PC = N * PC_STEP, the address just past the image (rule R126). -/
def State.endPc (s : State) : Nat := s.imemWords * s.cfg.pcStep.toNat

/-- `Fetch(pc)`: the end of the run at END_PC; a word where the address is below 2^32, a multiple of
PC_STEP, within the image, and supplied by it; no instruction anywhere else (rules R15, R26). -/
def State.fetch (s : State) : Fetched :=
  let a := s.pc.toNat
  let step := s.cfg.pcStep.toNat
  if a = s.endPc then .endOfRun
  else if a < 2 ^ 32 ∧ a % step = 0 ∧ a / step < s.imemWords then
    match s.instrWord (a / step) with
    | some w => .word w
    | none => .noInstruction a
  else .noInstruction a

end Sys2Proof.Machine
end

