-- ==== Sys2Proof/Machine/Operands.lean ====
section
/-! DEFINITION. The operand forms: one or two source registers into a destination register (30_encoding.md rule R36) and the absolute data address (44_load_store.md rule R84). Sources are read before the destination is written, rA before rB (10_state.md rule R11, 60_exceptions.md rule R104). -/

namespace Sys2Proof.Machine

/-- The effective address {16{0}, Immediate_address}, a data word index (rules R23, R84). -/
def effectiveAddress (imm : Imm16) : BitVec 32 := imm.setWidth 32

/-- Read x[rA], then x[rB] (rules R11, R104). -/
def State.readPair (s : State) (rA rB : RegNum) : Word × Word × State :=
  match s.readReg rA with
  | (a, s1) =>
    match s1.readReg rB with
    | (b, s2) => (a, b, s2)

/-- An instruction of the form x[rD] <- f (x[rA]); pc <- pc + PC_STEP. -/
def oneSourceOp (f : Word → Word) (rD rA : RegNum) (s : State) : Result :=
  match s.readReg rA with
  | (a, s1) => .next (s1.writeReg rD (f a)).advance

/-- An instruction of the form x[rD] <- f (x[rA], x[rB]); pc <- pc + PC_STEP. -/
def twoSourceOp (f : Word → Word → Word) (rD rA rB : RegNum) (s : State) : Result :=
  match s.readPair rA rB with
  | (a, b, s1) => .next (s1.writeReg rD (f a b)).advance

/-- A conditional branch on all 64 bits of x[rD]: to the absolute target if the condition holds,
else to the next instruction (rule R86). -/
def branchOp (cond : Word → Bool) (rD : RegNum) (imm : Imm16) (s : State) : Result :=
  match s.readReg rD with
  | (v, s1) => .next (if cond v then s1.branchTo imm else s1.advance)

end Sys2Proof.Machine
end

