-- ==== Sys2Proof/Machine/AddMul.lean ====
section
/-! DEFINITION. vadd, vsub, vmuleu, vmulou (41_add_sub_multiply.md). -/

namespace Sys2Proof.Machine

/-- (u + v) mod 2^size (rule R66). -/
def addLane (size u v : Nat) : Nat := dropCarry size (u + v)

/-- u + ~v + 1 modulo 2^size, the manual's form of u - v (rule R67). -/
def subLane (size u v : Nat) : Nat := dropCarry size (u + (2 ^ size - 1 - v) + 1)

/-- vadd: lane sums, each carry dropped (rule R66). -/
def execVadd (ww : Width) (rD rA rB : RegNum) (s : State) : Result :=
  twoSourceOp (zipLanes ww (addLane ww.size)) rD rA rB s

/-- vsub: lane differences x[rA] - x[rB], each borrow dropped (rule R67). -/
def execVsub (ww : Width) (rD rA rB : RegNum) (s : State) : Result :=
  twoSourceOp (zipLanes ww (subLane ww.size)) rD rA rB s

/-- vmuleu: exact unsigned products of the even lanes, double width (rule R68); the WW = 11 form is
reserved (rule R50). -/
def execVmuleu (ww : Width) (rD rA rB : RegNum) (s : State) : Result :=
  if ww.hasDouble then twoSourceOp (zipEven ww (fun u v => u * v)) rD rA rB s
  else raise (.illegalInstruction (encode (.vmuleu ww rD rA rB)))

/-- vmulou: exact unsigned products of the odd lanes, double width (rule R69); the WW = 11 form is
reserved (rule R50). -/
def execVmulou (ww : Width) (rD rA rB : RegNum) (s : State) : Result :=
  if ww.hasDouble then twoSourceOp (zipOdd ww (fun u v => u * v)) rD rA rB s
  else raise (.illegalInstruction (encode (.vmulou ww rD rA rB)))

end Sys2Proof.Machine
end

