-- ==== Sys2Proof/Machine/Branch.lean ====
section
/-! DEFINITION. vbeq, vbneq and vnop (45_branch_nop.md). -/

namespace Sys2Proof.Machine

/-- vbeq: branch if all 64 bits of x[rD] are zero (rule R87). -/
def execVbeq (rD : RegNum) (imm : Imm16) (s : State) : Result :=
  branchOp (fun v => v == 0#64) rD imm s

/-- vbneq: branch if at least one bit of x[rD] is one (rule R88). -/
def execVbneq (rD : RegNum) (imm : Imm16) (s : State) : Result :=
  branchOp (fun v => v != 0#64) rD imm s

/-- vnop: only the pc advances (rule R89). -/
def execVnop (s : State) : Result := .next s.advance

end Sys2Proof.Machine
end

