-- ==== Sys2Proof/Machine/DivSqrt.lean ====
section
/-! DEFINITION. vdivu, vmodu, vsqeu, vsqou, vsqrtu (43_divide_square_sqrt.md). -/

namespace Sys2Proof.Machine

/-- The quotient of a lane, or the free value DIVU_ZERO(size, u) for a zero divisor (rules R75,
R77). -/
def divLane (size u d : Nat) : Nat :=
  if d = 0 then (Config.divuZero size (BitVec.ofNat size u)).toNat else u / d

/-- The remainder of a lane, or the free value MODU_ZERO(size, u) for a zero divisor (rules R76,
R77). -/
def modLane (size u d : Nat) : Nat :=
  if d = 0 then (Config.moduZero size (BitVec.ofNat size u)).toNat else u % d

/-- The root's bits from i - 1 down to 0, each kept if the square does not pass v. -/
def isqrtFrom (v : Nat) : Nat → Nat → Nat
  | 0, r => r
  | i + 1, r => isqrtFrom v i (if (r + 2 ^ i) * (r + 2 ^ i) ≤ v then r + 2 ^ i else r)

/-- The largest s with s * s <= v, for v below 2^64 (rule R80, D14). -/
def isqrt (v : Nat) : Nat := isqrtFrom v 32 0

/-- vdivu: lane quotients (rules R75, R77). -/
def execVdivu (ww : Width) (rD rA rB : RegNum) (s : State) : Result :=
  twoSourceOp (zipLanes ww (divLane ww.size)) rD rA rB s

/-- vmodu: lane remainders (rules R76, R77). -/
def execVmodu (ww : Width) (rD rA rB : RegNum) (s : State) : Result :=
  twoSourceOp (zipLanes ww (modLane ww.size)) rD rA rB s

/-- vsqeu: exact squares of the even lanes, double width (rule R78); the WW = 11 form is reserved
(rule R50). -/
def execVsqeu (ww : Width) (rD rA : RegNum) (s : State) : Result :=
  if ww.hasDouble then oneSourceOp (fun a => zipEven ww (fun u v => u * v) a a) rD rA s
  else raise (.illegalInstruction (encode (.vsqeu ww rD rA)))

/-- vsqou: exact squares of the odd lanes, double width (rule R79); the WW = 11 form is reserved
(rule R50). -/
def execVsqou (ww : Width) (rD rA : RegNum) (s : State) : Result :=
  if ww.hasDouble then oneSourceOp (fun a => zipOdd ww (fun u v => u * v) a a) rD rA s
  else raise (.illegalInstruction (encode (.vsqou ww rD rA)))

/-- vsqrtu: the floor root of every lane (rule R80). -/
def execVsqrtu (ww : Width) (rD rA : RegNum) (s : State) : Result :=
  oneSourceOp (mapLanes ww isqrt) rD rA s

end Sys2Proof.Machine
end

