-- ==== Sys2Proof/Machine/LoadStore.lean ====
section
/-! DEFINITION. vld and vsd (44_load_store.md). -/

namespace Sys2Proof.Machine

/-- EA >= DMEM_WORDS: the word is not implemented (rule R24). -/
def State.outsideData (s : State) (ea : BitVec 32) : Bool := decide (s.cfg.dmemWords ≤ ea.toNat)

/-- MemRead(EA, 8) of an implemented word: its value, or for a word that nothing has given one,
what the parameter says: an arbitrary value, or DataAccessFault (rule R114). -/
def State.loadData (s : State) (ea : BitVec 32) : Except Fault (Word × State) :=
  match s.dataWord ea.toNat with
  | some v => .ok (v, s)
  | none =>
    match s.cfg.unwrittenData with
    | .draw => .ok s.draw
    | .fault => .error (.dataAccessFault ea)

/-- vld: x[rD] <- DMEM[EA]; no register is read (rule R82). -/
def execVld (rD : RegNum) (imm : Imm16) (s : State) : Result :=
  if s.outsideData (effectiveAddress imm) then raise (.dataAccessFault (effectiveAddress imm))
  else match s.loadData (effectiveAddress imm) with
    | .error e => raise e
    | .ok (v, s1) => .next (s1.writeReg rD v).advance

/-- vsd: DMEM[EA] <- x[rD]; the register is read before the address is checked (rules R83, R104). -/
def execVsd (rD : RegNum) (imm : Imm16) (s : State) : Result :=
  match s.readReg rD with
  | (v, s1) =>
    if s1.outsideData (effectiveAddress imm) then raise (.dataAccessFault (effectiveAddress imm))
    else .next (s1.storeWord (effectiveAddress imm).toNat v).advance

end Sys2Proof.Machine
end

