-- ==== Sys2Proof/Machine/Logical.lean ====
section
/-! DEFINITION. vand, vor, vxor, vnot, vmov (40_logical_move.md): one 64-bit operation each, the same for every WW (rule R60). -/

namespace Sys2Proof.Machine

/-- vand: x[rD] <- x[rA] & x[rB] (rule R61). -/
def execVand (_ww : Width) (rD rA rB : RegNum) (s : State) : Result :=
  twoSourceOp (fun a b => a &&& b) rD rA rB s

/-- vor: x[rD] <- x[rA] | x[rB] (rule R62). -/
def execVor (_ww : Width) (rD rA rB : RegNum) (s : State) : Result :=
  twoSourceOp (fun a b => a ||| b) rD rA rB s

/-- vxor: x[rD] <- x[rA] ^ x[rB], exclusive OR (rule R63, conflict C3). -/
def execVxor (_ww : Width) (rD rA rB : RegNum) (s : State) : Result :=
  twoSourceOp (fun a b => a ^^^ b) rD rA rB s

/-- vnot: x[rD] <- ~x[rA] (rule R64). -/
def execVnot (_ww : Width) (rD rA : RegNum) (s : State) : Result :=
  oneSourceOp (fun a => ~~~a) rD rA s

/-- vmov: x[rD] <- x[rA], the whole register (rule R65). -/
def execVmov (_ww : Width) (rD rA : RegNum) (s : State) : Result :=
  oneSourceOp (fun a => a) rD rA s

end Sys2Proof.Machine
end

