-- ==== Sys2Proof/Machine/Shift.lean ====
section
/-! DEFINITION. vsll, vsrl, vsra, vrtth (42_shift_rotate.md). -/

namespace Sys2Proof.Machine

/-- The shift amount a lane of x[rB] gives: its low log2(size) bits, so the lane modulo size
(rule R70). -/
def shiftAmount (size v : Nat) : Nat := v % size

/-- Shift left, zeros entering at the least significant end (rule R71). -/
def sllLane (size u v : Nat) : Nat := (u * 2 ^ shiftAmount size v) % 2 ^ size

/-- Shift right, zeros entering at the most significant end (rule R72). -/
def srlLane (size u v : Nat) : Nat := u / 2 ^ shiftAmount size v

/-- Shift right, copies of the lane's own most significant bit entering (rule R73). -/
def sraLane (size u v : Nat) : Nat :=
  let s := shiftAmount size v
  if 2 ^ (size - 1) ≤ u then (2 ^ s - 1) * 2 ^ (size - s) + u / 2 ^ s else u / 2 ^ s

/-- Exchange the two halves of a lane (rule R74). -/
def swapHalves (size u : Nat) : Nat :=
  (u % 2 ^ (size / 2)) * 2 ^ (size / 2) + u / 2 ^ (size / 2)

/-- vsll (rule R71). -/
def execVsll (ww : Width) (rD rA rB : RegNum) (s : State) : Result :=
  twoSourceOp (zipLanes ww (sllLane ww.size)) rD rA rB s

/-- vsrl (rule R72). -/
def execVsrl (ww : Width) (rD rA rB : RegNum) (s : State) : Result :=
  twoSourceOp (zipLanes ww (srlLane ww.size)) rD rA rB s

/-- vsra (rule R73). -/
def execVsra (ww : Width) (rD rA rB : RegNum) (s : State) : Result :=
  twoSourceOp (zipLanes ww (sraLane ww.size)) rD rA rB s

/-- vrtth (rule R74). -/
def execVrtth (ww : Width) (rD rA : RegNum) (s : State) : Result :=
  oneSourceOp (mapLanes ww (swapHalves ww.size)) rD rA s

end Sys2Proof.Machine
end

