-- ==== Sys2Proof/Machine/Dispatch.lean ====
section
/-! DEFINITION. One arm per instruction, each one direct call of its meaning. -/

namespace Sys2Proof.Machine

/-- What an instruction does to a state. -/
def exec (i : Instr) (s : State) : Host.Outcome State Fault Refusal :=
  match i with
  | .vand ww rD rA rB => Sys2Proof.Machine.execVand ww rD rA rB s
  | .vor ww rD rA rB => Sys2Proof.Machine.execVor ww rD rA rB s
  | .vxor ww rD rA rB => Sys2Proof.Machine.execVxor ww rD rA rB s
  | .vnot ww rD rA => Sys2Proof.Machine.execVnot ww rD rA s
  | .vmov ww rD rA => Sys2Proof.Machine.execVmov ww rD rA s
  | .vadd ww rD rA rB => Sys2Proof.Machine.execVadd ww rD rA rB s
  | .vsub ww rD rA rB => Sys2Proof.Machine.execVsub ww rD rA rB s
  | .vmuleu ww rD rA rB => Sys2Proof.Machine.execVmuleu ww rD rA rB s
  | .vmulou ww rD rA rB => Sys2Proof.Machine.execVmulou ww rD rA rB s
  | .vsll ww rD rA rB => Sys2Proof.Machine.execVsll ww rD rA rB s
  | .vsrl ww rD rA rB => Sys2Proof.Machine.execVsrl ww rD rA rB s
  | .vsra ww rD rA rB => Sys2Proof.Machine.execVsra ww rD rA rB s
  | .vrtth ww rD rA => Sys2Proof.Machine.execVrtth ww rD rA s
  | .vdivu ww rD rA rB => Sys2Proof.Machine.execVdivu ww rD rA rB s
  | .vmodu ww rD rA rB => Sys2Proof.Machine.execVmodu ww rD rA rB s
  | .vsqeu ww rD rA => Sys2Proof.Machine.execVsqeu ww rD rA s
  | .vsqou ww rD rA => Sys2Proof.Machine.execVsqou ww rD rA s
  | .vsqrtu ww rD rA => Sys2Proof.Machine.execVsqrtu ww rD rA s
  | .vld rD imm => Sys2Proof.Machine.execVld rD imm s
  | .vsd rD imm => Sys2Proof.Machine.execVsd rD imm s
  | .vbeq rD imm => Sys2Proof.Machine.execVbeq rD imm s
  | .vbneq rD imm => Sys2Proof.Machine.execVbneq rD imm s
  | .vnop => Sys2Proof.Machine.execVnop s

end Sys2Proof.Machine
end

