-- ==== Sys2Proof/Machine/Load.lean ====
section
/-! DEFINITION. What the host does before a run: it places the instruction image and the data image, then releases reset (70_reset_and_hazards.md rules R120, R123 to R125); and the placing of one instruction word where the next fetch finds it. -/

namespace Sys2Proof.Machine

/-- The bytes of the words `ws` from word index k on, each most significant byte first (rule R29). -/
def programBytes : Nat → List InstrWord → Memory
  | _, [] => []
  | k, w :: ws =>
    (4 * k, w.extractLsb' 24 8) :: (4 * k + 1, w.extractLsb' 16 8) ::
    (4 * k + 2, w.extractLsb' 8 8) :: (4 * k + 3, w.extractLsb' 0 8) :: programBytes (k + 1) ws

/-- The host places the instruction image W[0], ..., W[N-1] at instruction address 0, contiguous
(rule R124). -/
def State.loadProgram (s : State) (ws : List InstrWord) : State :=
  { s with imem := programBytes 0 ws, imemWords := ws.length }

/-- The host gives data words their values; the data image names implemented words only, so a pair
outside the memory places nothing (rule R125). -/
def State.loadDataImage (s : State) : List (Nat × Word) → State
  | [] => s
  | (a, v) :: ds =>
    if a < s.cfg.dmemWords then (s.storeWord a v).loadDataImage ds else s.loadDataImage ds

/-- The machine with the parameters `cfg`, both images placed and reset released (rule R123). -/
def State.start (cfg : Config) (ws : List InstrWord) (ds : List (Nat × Word)) : State :=
  (({ State.reset with cfg := cfg } : State).loadProgram ws).loadDataImage ds

/-- The state with the pc at an instruction address: unchanged if it holds one (a multiple of PC_STEP
below 2^32), else at 0, since no image can supply a word where it stands (rule R26). -/
def State.atInstrAddress (s : State) : State :=
  if s.pc.toNat < 2 ^ 32 ∧ s.pc.toNat % s.cfg.pcStep.toNat = 0 then s else { s with pc := .at 0#32 }

/-- Place `w` in the instruction memory at word index k, lengthening the image to hold it. -/
def State.placeInstr (s : State) (k : Nat) (w : InstrWord) : State :=
  { s with imem := s.imem.writeBE (4 * k) 4 w.toNat, imemWords := max s.imemWords (k + 1) }

/-- Place `w` where the next fetch finds it (log 22). -/
def State.placeAtPc (s : State) (w : InstrWord) : State :=
  s.atInstrAddress.placeInstr (s.atInstrAddress.pc.toNat / s.cfg.pcStep.toNat) w

end Sys2Proof.Machine
end

