-- ==== Sys2Proof/Machine/Step.lean ====
section
/-! DEFINITION. One step: fetch, decode, execute, in the order that also ranks the faults (60_exceptions.md rule R104). -/

namespace Sys2Proof.Machine

/-- Execute a fetched word: a reserved one raises IllegalInstruction (rule R46). -/
def runWord (w : InstrWord) (s : State) : Result :=
  match decode w with
  | .ok i => exec i s
  | .error _ => raise (.illegalInstruction w)

/-- One step of the machine (rules R26, R46, R104, R126, R131). -/
def step (s : State) : Host.Outcome State Fault Refusal :=
  match s.fetch with
  | .word w => runWord w s
  | .endOfRun => .refused .runEnded
  | .noInstruction a => raise (.fetchFault a)

/-- The state with the instruction whose table bits are `w` stored where `step` fetches next. -/
def State.withFetchWord (s : State) (nbits w : Nat) : State :=
  s.placeAtPc (BitVec.ofNat 32 (w % 2 ^ nbits))

end Sys2Proof.Machine
end

