-- ==== Sys2Proof/Machine/Assembly.lean ====
section
/-! DEFINITION. The assembler spellings (30_encoding.md rules R52 to R55, decisions D23 and D24): the text a disassembler prints for an instruction, and an assembler from text to instruction words. Nothing in the machine depends on it. -/

namespace Sys2Proof

/-- The assembly suffix of a width (rule R41). -/
def Width.suffix : Width → String
  | .b => "b"
  | .h => "h"
  | .w => "w"
  | .d => "d"

/-- The canonical base mnemonic (rule R53). -/
def Instr.mnemonic : Instr → String
  | .vand .. => "vand"
  | .vor .. => "vor"
  | .vxor .. => "vxor"
  | .vnot .. => "vnot"
  | .vmov .. => "vmov"
  | .vadd .. => "vadd"
  | .vsub .. => "vsub"
  | .vmuleu .. => "vmuleu"
  | .vmulou .. => "vmulou"
  | .vsll .. => "vsll"
  | .vsrl .. => "vsrl"
  | .vsra .. => "vsra"
  | .vrtth .. => "vrtth"
  | .vdivu .. => "vdivu"
  | .vmodu .. => "vmodu"
  | .vsqeu .. => "vsqeu"
  | .vsqou .. => "vsqou"
  | .vsqrtu .. => "vsqrtu"
  | .vld .. => "vld"
  | .vsd .. => "vsd"
  | .vbeq .. => "vbeq"
  | .vbneq .. => "vbneq"
  | .vnop => "vnop"

/-! ### Printing (rules R52, R54, R55) -/

/-- A register is written r and its number (rule R52, D24). -/
def registerText (r : RegNum) : String := "r" ++ toString r.toNat

/-- `<base><x> rD, rA, rB`. -/
def threeOperandText (base : String) (ww : Width) (rD rA rB : RegNum) : String :=
  base ++ ww.suffix ++ " " ++ registerText rD ++ ", " ++ registerText rA ++ ", " ++ registerText rB

/-- `<base><x> rD, rA`. -/
def oneSourceText (base : String) (ww : Width) (rD rA : RegNum) : String :=
  base ++ ww.suffix ++ " " ++ registerText rD ++ ", " ++ registerText rA

/-- `<base> rD, Immediate_address`, printed bare (rule R54), the immediate in decimal. -/
def immediateText (base : String) (rD : RegNum) (imm : Imm16) : String :=
  base ++ " " ++ registerText rD ++ ", " ++ toString imm.toNat

/-- The assembly statement a disassembler prints (rules R52 to R55). -/
def Instr.assembly (i : Instr) : String :=
  match i with
  | .vand ww rD rA rB => threeOperandText i.mnemonic ww rD rA rB
  | .vor ww rD rA rB => threeOperandText i.mnemonic ww rD rA rB
  | .vxor ww rD rA rB => threeOperandText i.mnemonic ww rD rA rB
  | .vnot ww rD rA => oneSourceText i.mnemonic ww rD rA
  | .vmov ww rD rA => oneSourceText i.mnemonic ww rD rA
  | .vadd ww rD rA rB => threeOperandText i.mnemonic ww rD rA rB
  | .vsub ww rD rA rB => threeOperandText i.mnemonic ww rD rA rB
  | .vmuleu ww rD rA rB => threeOperandText i.mnemonic ww rD rA rB
  | .vmulou ww rD rA rB => threeOperandText i.mnemonic ww rD rA rB
  | .vsll ww rD rA rB => threeOperandText i.mnemonic ww rD rA rB
  | .vsrl ww rD rA rB => threeOperandText i.mnemonic ww rD rA rB
  | .vsra ww rD rA rB => threeOperandText i.mnemonic ww rD rA rB
  | .vrtth ww rD rA => oneSourceText i.mnemonic ww rD rA
  | .vdivu ww rD rA rB => threeOperandText i.mnemonic ww rD rA rB
  | .vmodu ww rD rA rB => threeOperandText i.mnemonic ww rD rA rB
  | .vsqeu ww rD rA => oneSourceText i.mnemonic ww rD rA
  | .vsqou ww rD rA => oneSourceText i.mnemonic ww rD rA
  | .vsqrtu ww rD rA => oneSourceText i.mnemonic ww rD rA
  | .vld rD imm => immediateText i.mnemonic rD imm
  | .vsd rD imm => immediateText i.mnemonic rD imm
  | .vbeq rD imm => immediateText i.mnemonic rD imm
  | .vbneq rD imm => immediateText i.mnemonic rD imm
  | .vnop => i.mnemonic

/-! ### Mnemonics an assembler accepts (rule R53: the canonical names and the other spellings) -/

/-- Base spellings of the twelve three-operand instructions. -/
def threeOperandForms : List (String × (Width → RegNum → RegNum → RegNum → Instr)) := [
  ("vand", .vand), ("vor", .vor), ("vxor", .vxor), ("vadd", .vadd), ("vsub", .vsub),
  ("vmuleu", .vmuleu), ("vmulou", .vmulou), ("mulou", .vmulou),
  ("vsll", .vsll), ("vsrl", .vsrl), ("vsra", .vsra),
  ("vdivu", .vdivu), ("vdiv", .vdivu), ("vmodu", .vmodu), ("vmod", .vmodu)]

/-- Base spellings of the six one-source instructions. -/
def oneSourceForms : List (String × (Width → RegNum → RegNum → Instr)) := [
  ("vnot", .vnot), ("vmov", .vmov), ("vrtth", .vrtth), ("vsqeu", .vsqeu), ("vsqou", .vsqou),
  ("vsqrtu", .vsqrtu), ("vsqrt", .vsqrtu), ("vbsqrtu", .vsqrtu)]

/-- Spellings of the four M-type instructions. -/
def immediateForms : List (String × (RegNum → Imm16 → Instr)) := [
  ("vld", .vld), ("vsd", .vsd), ("vbeq", .vbeq), ("vbez", .vbeq), ("vbneq", .vbneq),
  ("vbnez", .vbneq)]

/-- Spellings of vnop. -/
def nopForms : List String := ["vnop", "vbnop"]

/-- The width a suffix names. -/
def widthOfSuffix (c : Char) : Option Width :=
  if c = 'b' then some .b
  else if c = 'h' then some .h
  else if c = 'w' then some .w
  else if c = 'd' then some .d
  else none

/-- A mnemonic taken apart into base and width suffix. -/
def splitSuffix (name : List Char) : Option (List Char × Width) :=
  match name.reverse with
  | [] => none
  | c :: cs => (widthOfSuffix c).map (fun ww => (cs.reverse, ww))

/-- The first entry whose spelling is `name`. -/
def lookupForm {α : Type} (name : List Char) (forms : List (String × α)) : Option α :=
  (forms.find? (fun p => p.1.toList == name)).map Prod.snd

/-- As `lookupForm`, where a width suffix is optional and ignored (rule R54). -/
def lookupBare {α : Type} (name : List Char) (forms : List (String × α)) : Option α :=
  match lookupForm name forms with
  | some f => some f
  | none => (splitSuffix name).bind (fun p => lookupForm p.1 forms)

/-- An operand of a statement (rules R52, R55). -/
inductive Operand where
  | reg (r : RegNum)
  | imm (i : Imm16)
  deriving DecidableEq, Repr

/-- The instruction a mnemonic and its operands spell, if any; mnemonics are case-insensitive (D24)
and the double-width instructions have no d form (rule R53). -/
def assembleStatement (name : List Char) (ops : List Operand) : Option Instr :=
  let m := name.map Char.toLower
  let i : Option Instr := match ops with
    | [.reg rD, .reg rA, .reg rB] =>
      (splitSuffix m).bind (fun p => (lookupForm p.1 threeOperandForms).map (fun f => f p.2 rD rA rB))
    | [.reg rD, .reg rA] =>
      (splitSuffix m).bind (fun p => (lookupForm p.1 oneSourceForms).map (fun f => f p.2 rD rA))
    | [.reg rD, .imm a] => (lookupBare m immediateForms).map (fun f => f rD a)
    | [] => lookupBare m (nopForms.map (fun n => (n, Instr.vnop)))
    | _ => none
  i.filter Instr.wellFormed

/-! ### Text (rule R55, D24) -/

/-- The value of a digit below the base. -/
def digitValue (base : Nat) (c : Char) : Option Nat :=
  let n := c.toLower.toNat
  let v := if 48 ≤ n ∧ n ≤ 57 then n - 48 else if 97 ≤ n ∧ n ≤ 102 then n - 87 else base
  if v < base then some v else none

/-- The value of a run of digits after `acc`. -/
def digitsValue (base : Nat) : Nat → List Char → Option Nat
  | acc, [] => some acc
  | acc, c :: cs =>
    match digitValue base c with
    | some v => digitsValue base (acc * base + v) cs
    | none => none

/-- A number, decimal or 0x hexadecimal. -/
def numberValue : List Char → Option Nat
  | [] => none
  | '0' :: 'x' :: c :: cs => digitsValue 16 0 (c :: cs)
  | cs => digitsValue 10 0 cs

/-- A register, a number from 0 to 65535, or a label, which stands for its instruction address. -/
def parseOperand (labels : List (List Char × Nat)) (cs : List Char) : Option Operand :=
  let register : Option Nat := match cs with
    | 'r' :: c :: ds => digitsValue 10 0 (c :: ds)
    | _ => none
  match register with
  | some n => if n < 32 then some (.reg (BitVec.ofNat 5 n)) else none
  | none =>
    match (numberValue cs).or ((labels.find? (fun p => p.1 == cs)).map Prod.snd) with
    | some n => if n < 65536 then some (.imm (BitVec.ofNat 16 n)) else none
    | none => none

/-- The tokens of a line, separated by blanks and commas; a semicolon opens a comment. `cur` is the
token being read, reversed. -/
def tokensFrom : List Char → List Char → List (List Char)
  | cur, [] => if cur.isEmpty then [] else [cur.reverse]
  | cur, c :: cs =>
    if c = ';' then (if cur.isEmpty then [] else [cur.reverse])
    else if c = ' ' ∨ c = '\t' ∨ c = ',' then
      (if cur.isEmpty then tokensFrom [] cs else cur.reverse :: tokensFrom [] cs)
    else tokensFrom (c :: cur) cs

/-- The label a line opens with, if any, and its remaining tokens. -/
def splitLabel : List (List Char) → Option (List Char) × List (List Char)
  | [] => (none, [])
  | t :: ts =>
    match t.reverse with
    | ':' :: cs => (some cs.reverse, ts)
    | _ => (none, t :: ts)

/-- A line: its label and its tokens. -/
def readLine (line : String) : Option (List Char) × List (List Char) :=
  splitLabel (tokensFrom [] line.toList)

/-- The labels of a program: each stands for the address k * PC_STEP of the next instruction. -/
def labelsFrom (step : PcStep) : Nat → List (Option (List Char) × List (List Char)) →
    List (List Char × Nat)
  | _, [] => []
  | k, (l, ts) :: rest =>
    let more := labelsFrom step (if ts.isEmpty then k else k + 1) rest
    match l with
    | some n => (n, k * step.toNat) :: more
    | none => more

/-- The words of the lines read; none if a line spells no instruction. -/
def assembleLines (labels : List (List Char × Nat)) :
    List (Option (List Char) × List (List Char)) → Option (List InstrWord)
  | [] => some []
  | (_, []) :: rest => assembleLines labels rest
  | (_, m :: ops) :: rest =>
    match (ops.mapM (parseOperand labels)).bind (assembleStatement m), assembleLines labels rest with
    | some i, some ws => some (encode i :: ws)
    | _, _ => none

/-- Assemble a program, one statement a line (rules R52 to R55). -/
def assemble (step : PcStep) (lines : List String) : Option (List InstrWord) :=
  assembleLines (labelsFrom step 0 (lines.map readLine)) (lines.map readLine)

end Sys2Proof
end

