-- ==== Sys2Proof/Safety.lean ====
section
/-! DEFINITION. The terms claims are stated in: the state invariant, what an instruction reads, writes and jumps to (10_state.md rule R11), when a register holds a value, and what it means that an instruction changes one register, or one data word, and nothing else. -/

namespace Sys2Proof

/-- The parameters have admissible values: 1 <= DMEM_WORDS <= 65536 (rule R24); the other
parameters have no other values. -/
abbrev Config.wf (c : Config) : Prop := 1 ≤ c.dmemWords ∧ c.dmemWords ≤ 65536

/-- The registers an instruction reads, in the order it reads them (rules R11, R104). -/
def Instr.sources : Instr → List RegNum
  | .vand _ _ rA rB => [rA, rB]
  | .vor _ _ rA rB => [rA, rB]
  | .vxor _ _ rA rB => [rA, rB]
  | .vnot _ _ rA => [rA]
  | .vmov _ _ rA => [rA]
  | .vadd _ _ rA rB => [rA, rB]
  | .vsub _ _ rA rB => [rA, rB]
  | .vmuleu _ _ rA rB => [rA, rB]
  | .vmulou _ _ rA rB => [rA, rB]
  | .vsll _ _ rA rB => [rA, rB]
  | .vsrl _ _ rA rB => [rA, rB]
  | .vsra _ _ rA rB => [rA, rB]
  | .vrtth _ _ rA => [rA]
  | .vdivu _ _ rA rB => [rA, rB]
  | .vmodu _ _ rA rB => [rA, rB]
  | .vsqeu _ _ rA => [rA]
  | .vsqou _ _ rA => [rA]
  | .vsqrtu _ _ rA => [rA]
  | .vld _ _ => []
  | .vsd rD _ => [rD]
  | .vbeq rD _ => [rD]
  | .vbneq rD _ => [rD]
  | .vnop => []

/-- The register an instruction writes, if any (rule R11). -/
def Instr.dest : Instr → Option RegNum
  | .vand _ rD _ _ => some rD
  | .vor _ rD _ _ => some rD
  | .vxor _ rD _ _ => some rD
  | .vnot _ rD _ => some rD
  | .vmov _ rD _ => some rD
  | .vadd _ rD _ _ => some rD
  | .vsub _ rD _ _ => some rD
  | .vmuleu _ rD _ _ => some rD
  | .vmulou _ rD _ _ => some rD
  | .vsll _ rD _ _ => some rD
  | .vsrl _ rD _ _ => some rD
  | .vsra _ rD _ _ => some rD
  | .vrtth _ rD _ => some rD
  | .vdivu _ rD _ _ => some rD
  | .vmodu _ rD _ _ => some rD
  | .vsqeu _ rD _ => some rD
  | .vsqou _ rD _ => some rD
  | .vsqrtu _ rD _ => some rD
  | .vld rD _ => some rD
  | .vsd _ _ => none
  | .vbeq _ _ => none
  | .vbneq _ _ => none
  | .vnop => none

/-- The target of a conditional branch (rule R85); no other instruction has one. -/
def Instr.target : Instr → Option Imm16
  | .vbeq _ imm => some imm
  | .vbneq _ imm => some imm
  | _ => none

/-- The data address of a load or store (rule R84); no other instruction has one. -/
def Instr.dataAddress : Instr → Option Imm16
  | .vld _ imm => some imm
  | .vsd _ imm => some imm
  | _ => none

/-- The data address an instruction stores to (rule R20): vsd alone stores. -/
def Instr.storeAddress : Instr → Option Imm16
  | .vsd _ imm => some imm
  | _ => none

end Sys2Proof

namespace Sys2Proof.Machine

/-- Reading register i gives a value the machine holds, not a draw: the register is
hardwired, or written, or the parameter says that it holds its reset value. -/
def State.holds (s : State) (i : RegNum) : Bool :=
  s.hardwired i || s.isWritten i || s.cfg.unwrittenReg == .value

/-- The value register i reads as where it holds one (rule R12). -/
def State.value (s : State) (i : RegNum) : Word := if s.hardwired i then 0#64 else s.reg i

/-- A lane read as a two's complement number; vsra alone reads one so (rule R73). -/
def signedLane (size u : Nat) : Int := if 2 ^ (size - 1) ≤ u then (u : Int) - 2 ^ size else u

/-- From s, register rD has been given v (nothing, if it is hardwired), the pc has advanced, the draw
counter is `draws`, and nothing else has changed: no other register, no byte of either memory,
no parameter (rules R11, R12, R15). -/
structure GivesRegister (s t : State) (rD : RegNum) (v : Word) (draws : Nat) : Prop where
  regs : ∀ r, t.reg r = if r = rD ∧ s.hardwired rD = false then v else s.reg r
  written : ∀ r, t.isWritten r = if r = rD ∧ s.hardwired rD = false then true else s.isWritten r
  pc : t.pc = s.pc.next s.cfg.pcStep
  data : ∀ x, t.dmem.readByte x = s.dmem.readByte x
  program : ∀ x, t.imem.readByte x = s.imem.readByte x
  programLength : t.imemWords = s.imemWords
  parameters : t.cfg = s.cfg
  counter : t.draws = draws

/-- From s, the pc has become `pc`, the draw counter is `draws`, and nothing else has changed. -/
structure GivesPc (s t : State) (pc : Pc) (draws : Nat) : Prop where
  regs : ∀ r, t.reg r = s.reg r
  written : ∀ r, t.isWritten r = s.isWritten r
  pc : t.pc = pc
  data : ∀ x, t.dmem.readByte x = s.dmem.readByte x
  program : ∀ x, t.imem.readByte x = s.imem.readByte x
  programLength : t.imemWords = s.imemWords
  parameters : t.cfg = s.cfg
  counter : t.draws = draws

/-- From s, data word a has been given v, the pc has advanced, the draw counter is `draws`, and
nothing else has changed; every byte outside 8a to 8a + 7 is as before (rules R21, R83). -/
structure GivesDataWord (s t : State) (a : Nat) (v : Word) (draws : Nat) : Prop where
  regs : ∀ r, t.reg r = s.reg r
  written : ∀ r, t.isWritten r = s.isWritten r
  pc : t.pc = s.pc.next s.cfg.pcStep
  stored : t.dataWord a = some v
  data : ∀ x, x < 8 * a ∨ 8 * a + 8 ≤ x → t.dmem.readByte x = s.dmem.readByte x
  program : ∀ x, t.imem.readByte x = s.imem.readByte x
  programLength : t.imemWords = s.imemWords
  parameters : t.cfg = s.cfg
  counter : t.draws = draws

/-- Every byte of the image's first N words has a value and no other address has one (rule R124). -/
def State.programContiguous (s : State) : Prop :=
  ∀ x, (s.imem.readByte x).isSome = decide (x < 4 * s.imemWords)

/-- A data word has all of its eight bytes or none, and only implemented words have any (rules R20,
R24, R125). -/
def State.dataInWords (s : State) : Prop :=
  (∀ a j, j < 8 → (s.dmem.readByte (8 * a + j)).isSome = (s.dmem.readByte (8 * a)).isSome) ∧
  ∀ x, (s.dmem.readByte x).isSome → x < 8 * s.cfg.dmemWords

/-- What holds of every state of a run: admissible parameters; both memories canonical; the program
contiguous and below 2^32; the data memory in whole implemented words; the pc within the image,
at its end, or at an address a branch can name (rules R14, R24, R26, R124, R125). -/
structure State.Inv (s : State) : Prop where
  parameters : s.cfg.wf
  dataCanonical : s.dmem.wf
  programCanonical : s.imem.wf
  contiguous : s.programContiguous
  imageFits : s.endPc ≤ 2 ^ 32
  dataWhole : s.dataInWords
  pcInReach : s.pc.toNat ≤ s.endPc ∨ s.pc.toNat ≤ 65535

end Sys2Proof.Machine
end

