-- ==== Sys2Proof/Certificates/Slice0/Obligations.lean ====
section
/-! DEFINITION. The statements for the provers, from the numbered rules of spec/. Parameters of the machine stand in the state (log 1), so "for every state" covers every value of R0_ZERO, PC_STEP and DMEM_WORDS and each treatment of a value nothing has written. A source read is `s.readReg i = (v, s1)`: what it answers is stated by RegisterReads. -/

open Sys2Proof Sys2Proof.Machine

/-! ### Encoding (30_encoding.md) -/

/-- Encoding loses nothing: the decoder gives every well-formed instruction back, every operand at
every value (rules R35 to R46). -/
def Obligations.DecodeOfEncodeIsTheInstruction : Prop :=
  ∀ i : Instr, i.wellFormed = true → decode (encode i) = .ok i

/-- Every word the decoder accepts is the word of the instruction it gives, which is well-formed:
no two words mean one instruction (rules R46, R51). -/
def Obligations.EncodeOfDecodeIsTheWord : Prop :=
  ∀ (w : InstrWord) (i : Instr), decode w = .ok i → encode i = w ∧ i.wellFormed = true

/-- Rule R46: a word is an instruction exactly when it matches a row of the match and mask table; the
row has the instruction's mnemonic and the instruction, laid out by rules R36 and R37, is the word;
no word matches two rows; every other word is IllegalInstruction. -/
def Obligations.DecodeAgreesWithMatchTable : Prop :=
  (∀ (w : InstrWord) (r : Row), r ∈ opcodeRows → r.admits w = true →
    ∃ i, decode w = .ok i ∧ i.mnemonic = r.mnemonic ∧ encode i = w) ∧
  (∀ (w : InstrWord) (i : Instr), decode w = .ok i →
    ∃ r ∈ opcodeRows, r.admits w = true ∧ r.mnemonic = i.mnemonic) ∧
  (∀ (w : InstrWord) (r r' : Row), r ∈ opcodeRows → r' ∈ opcodeRows →
    r.admits w = true → r'.admits w = true → r = r') ∧
  (∀ (s : State) (w : InstrWord), s.fetch = .word w →
    (∀ r ∈ opcodeRows, r.admits w = false) → step s = .fault (.illegalInstruction w))

/-- Words written out from the layouts, one or more of each family, and words next to them that are
reserved (rules R36, R37, R45 to R50). -/
def Obligations.SampleWordsDecode : Prop :=
  decode 0xA8611001#32 = .ok (.vand .b 3 1 2) ∧
  decode 0xA8610084#32 = .ok (.vnot .w 3 1) ∧
  decode 0xA82108C6#32 = .ok (.vadd .d 1 1 1) ∧
  decode 0xABFEE808#32 = .ok (.vmuleu .b 31 30 29) ∧
  decode 0xA884204A#32 = .ok (.vsll .h 4 4 4) ∧
  decode 0xA86100CD#32 = .ok (.vrtth .d 3 1) ∧
  decode 0xA861100F#32 = .ok (.vmodu .b 3 1 2) ∧
  decode 0xA9290052#32 = .ok (.vsqrtu .h 9 9) ∧
  decode 0x80E00010#32 = .ok (.vld 7 0x0010) ∧
  decode 0x84E00011#32 = .ok (.vsd 7 0x0011) ∧
  decode 0x8BE0FFFF#32 = .ok (.vbeq 31 0xFFFF) ∧
  decode 0x8C000000#32 = .ok (.vbneq 0 0) ∧
  decode 0xF0000000#32 = .ok .vnop ∧
  decode 0xA86110C8#32 = .error .reservedWidth ∧
  decode 0xA8610013#32 = .error .reservedFunct ∧
  decode 0xA8611101#32 = .error .nonzeroField ∧
  decode 0x00000000#32 = .error .reservedOpcode

/-- Rules R47 and R48: an unassigned major opcode, the all-zero and all-ones words among them, or an
unassigned function code raises IllegalInstruction(w). -/
def Obligations.UnassignedCodesAreIllegal : Prop :=
  ∀ (s : State) (w : InstrWord), s.fetch = .word w →
    (fieldOp w ∉ [0b100000#6, 0b100001#6, 0b100010#6, 0b100011#6, 0b101010#6, 0b111100#6] ∨
      w = 0x00000000#32 ∨ w = 0xFFFFFFFF#32 ∨
      (fieldOp w = 0b101010#6 ∧ (fieldFunct w = 0b000000#6 ∨ 0b010011#6 ≤ fieldFunct w))) →
    step s = .fault (.illegalInstruction w)

/-- Rule R49: a non-zero bit in a field printed as zeros raises IllegalInstruction(w): w[10:8] in an
R-type word, w[15:11] in the six unary ones (function codes 4, 5, 13, 16, 17, 18), w[20:16] in an
M-type word, w[25:0] in vnop. -/
def Obligations.NonzeroFieldsAreIllegal : Prop :=
  ∀ (s : State) (w : InstrWord), s.fetch = .word w →
    ((fieldOp w = 0b101010#6 ∧ fieldZero w ≠ 0#3) ∨
      (fieldOp w = 0b101010#6 ∧ fieldFunct w ∈ [4#6, 5#6, 13#6, 16#6, 17#6, 18#6] ∧
        fieldRB w ≠ 0#5) ∨
      (fieldOp w ∈ [0b100000#6, 0b100001#6, 0b100010#6, 0b100011#6] ∧ fieldRA w ≠ 0#5) ∨
      (fieldOp w = 0b111100#6 ∧ w.extractLsb' 0 26 ≠ 0#26)) →
    step s = .fault (.illegalInstruction w)

/-- Rule R50: vmuleu, vmulou, vsqeu and vsqou words (function codes 8, 9, 16, 17) with WW = 11 raise
IllegalInstruction(w). The second half is about terms and is the model's inference, no rule of the
spec (log 17, DEDUCED): an ill-formed term is one of those four with width d, and executing it
faults with its own reserved word. -/
def Obligations.ReservedWidthsAreIllegal : Prop :=
  (∀ (s : State) (w : InstrWord), s.fetch = .word w → fieldOp w = 0b101010#6 →
    fieldFunct w ∈ [8#6, 9#6, 16#6, 17#6] → fieldWW w = 0b11#2 →
    step s = .fault (.illegalInstruction w)) ∧
  (∀ (i : Instr) (s : State), i.wellFormed = false →
    exec i s = .fault (.illegalInstruction (encode i)) ∧
    (∃ rD rA rB, i = .vmuleu .d rD rA rB ∨ i = .vmulou .d rD rA rB ∨ i = .vsqeu .d rD rA ∨
      i = .vsqou .d rD rA))

/-! ### Fetch, step, reset and the host (20_memory.md, 60_exceptions.md, 70_reset_and_hazards.md) -/

/-- When the word at the pc decodes to i, the step is exec of i: nothing is added around it (rules
R46, R131). -/
def Obligations.StepRunsTheDecodedInstruction : Prop :=
  ∀ (s : State) (w : InstrWord) (i : Instr), s.fetch = .word w → decode w = .ok i →
    step s = exec i s

/-- Rule R26: Fetch is defined exactly at a multiple of PC_STEP whose index is below IMEM_WORDS and
where the image supplies a word; everywhere else the step raises FetchFault(a), except at
END_PC, where the machine stops without fault; that it stops there with the refusal runEnded is
the model's choice (log 15), and so is the address 2^32 for the pc past the top (log 10). A branch
reaches 0 to 65535 only. -/
def Obligations.FetchIsDefinedInsideTheImage : Prop :=
  (∀ (s : State) (a : BitVec 32), s.pc = .at a → a.toNat ≠ s.endPc →
    (∀ w, a.toNat % s.cfg.pcStep.toNat = 0 → a.toNat / s.cfg.pcStep.toNat < s.imemWords →
      s.instrWord (a.toNat / s.cfg.pcStep.toNat) = some w → s.fetch = .word w) ∧
    (a.toNat % s.cfg.pcStep.toNat ≠ 0 ∨ s.imemWords ≤ a.toNat / s.cfg.pcStep.toNat ∨
        s.instrWord (a.toNat / s.cfg.pcStep.toNat) = none →
      step s = .fault (.fetchFault a.toNat))) ∧
  (∀ s : State, s.pc = .past → s.endPc ≠ 2 ^ 32 → step s = .fault (.fetchFault (2 ^ 32))) ∧
  (∀ s : State, s.pc.toNat = s.endPc → step s = .refused .runEnded) ∧
  (∀ imm : Imm16, (branchTarget imm).toNat = imm.toNat ∧ imm.toNat ≤ 65535)

/-- The run ends exactly at END_PC = N * PC_STEP, before any fetch there, and by nothing else: the
model's refusal runEnded is no fault (rule R126; log 15 is the model's choice of a refusal). -/
def Obligations.RunEndsExactlyAtEndPc : Prop :=
  ∀ s : State, step s = .refused .runEnded ↔
    s.pc.toNat = s.imemWords * s.cfg.pcStep.toNat

/-- The order of rule R104: FetchFault, then IllegalInstruction, then DataAccessFault; the earlier one
is reported whatever else holds. Between the last two the rule has UnwrittenRegisterRead; this model
takes a value there instead (log 4: a draw, which rule R114 permits, or the value held since
reset), so reading a register stops nothing: without a data address the decoded instruction
completes. -/
def Obligations.FaultsComeInOrder : Prop :=
  ∀ s : State,
    (∀ a, s.fetch = .noInstruction a → step s = .fault (.fetchFault a)) ∧
    (∀ w d, s.fetch = .word w → decode w = .error d → step s = .fault (.illegalInstruction w)) ∧
    (∀ w i, s.fetch = .word w → decode w = .ok i → i.dataAddress = none → ∃ t, step s = .next t) ∧
    (∀ w i imm, s.fetch = .word w → decode w = .ok i → i.dataAddress = some imm →
      s.cfg.dmemWords ≤ imm.toNat → step s = .fault (.dataAccessFault (effectiveAddress imm)))

/-- What reset leaves (rules R19, R120). The spec gives: the pc at 0, no register written, no data
word with a value, parameters at the spec's defaults. The model's own choices, no rule of the
spec: the registers' value 0 (log 3), the treatments of never-written values (logs 4, 5), the
draw counter 0 (log 6), the empty image, imemWords = 0 (log 22), and the refusal runEnded at the
first step, which follows from the empty image (logs 22, 15). -/
def Obligations.ResetState : Prop :=
  State.reset.pc = .at 0#32 ∧
  (∀ r, State.reset.isWritten r = false ∧ State.reset.reg r = 0#64) ∧
  (∀ a, State.reset.dataWord a = none) ∧
  State.reset.imemWords = 0 ∧ State.reset.draws = 0 ∧
  State.reset.cfg = ⟨false, .one, 65536, .value, .draw⟩ ∧
  step State.reset = .refused .runEnded

/-- Reset meets the state invariant. -/
def Obligations.ResetMeetsTheInvariant : Prop := State.reset.Inv

/-- A machine with admissible parameters, an instruction image that fits below 2^32 and any data image
starts in the invariant, with the pc at 0 and no register written (rules R120, R123 to R125). -/
def Obligations.StartMeetsTheInvariant : Prop :=
  ∀ (cfg : Config) (ws : List InstrWord) (ds : List (Nat × Word)), cfg.wf →
    ws.length * cfg.pcStep.toNat ≤ 2 ^ 32 →
    (State.start cfg ws ds).Inv ∧ (State.start cfg ws ds).pc = .at 0#32 ∧
    (State.start cfg ws ds).cfg = cfg ∧ ∀ r, (State.start cfg ws ds).isWritten r = false

/-- Every step keeps the invariant: admissible parameters, canonical memories, a contiguous program,
whole implemented data words, and a pc within the image, at its end, or where a branch reaches. -/
def Obligations.EveryStepKeepsTheInvariant : Prop :=
  ∀ s t : State, s.Inv → step s = .next t → t.Inv

/-- Rule R27: no instruction writes the instruction memory; the program, its length and the parameters
are constant for the whole run, and no store is seen by a later fetch. -/
def Obligations.NothingWritesTheProgram : Prop :=
  (∀ (i : Instr) (s t : State), exec i s = .next t →
    t.imem = s.imem ∧ t.imemWords = s.imemWords ∧ t.cfg = s.cfg) ∧
  (∀ (k : Nat) (s t : State), core.run k s = .next t →
    t.imem = s.imem ∧ t.imemWords = s.imemWords ∧ t.cfg = s.cfg) ∧
  (∀ (s : State) (a : Nat) (v : Word), (s.storeWord a v).fetch = s.fetch)

/-- Rule R124: the image W[0], ..., W[N-1] is at instruction address 0, contiguous, so Fetch(k *
PC_STEP) = W[k] for k < N; the run ends at k = N; Fetch is undefined everywhere else. -/
def Obligations.ProgramImageIsFetched : Prop :=
  ∀ (s : State) (ws : List InstrWord) (a : BitVec 32) (k : Nat),
    (a.toNat = k * s.cfg.pcStep.toNat →
      (∀ w, ws[k]? = some w → ({ s.loadProgram ws with pc := .at a } : State).fetch = .word w) ∧
      (k = ws.length → ({ s.loadProgram ws with pc := .at a } : State).fetch = .endOfRun) ∧
      (ws.length < k →
        ({ s.loadProgram ws with pc := .at a } : State).fetch = .noInstruction a.toNat)) ∧
    (a.toNat % s.cfg.pcStep.toNat ≠ 0 →
      ({ s.loadProgram ws with pc := .at a } : State).fetch = .noInstruction a.toNat)

/-- Rule R125: the data image gives the implemented words it names their values and no other word
one. -/
def Obligations.DataImageIsLoaded : Prop :=
  ∀ (cfg : Config) (ws : List InstrWord) (ds : List (Nat × Word)),
    (∀ p ∈ ds, p.1 < cfg.dmemWords) → (ds.map Prod.fst).Nodup →
    (∀ a v, (a, v) ∈ ds → (State.start cfg ws ds).dataWord a = some v) ∧
    (∀ a, a ∉ ds.map Prod.fst → (State.start cfg ws ds).dataWord a = none)

/-- Rule R29: data word a occupies bytes 8a to 8a + 7 and instruction word k bytes 4k to 4k + 3, each
most significant byte first, which for an instruction holds the opcode. -/
def Obligations.ImagesAreBigEndian : Prop :=
  (∀ (s : State) (a j : Nat) (v : Word), j < 8 →
    (s.storeWord a v).dmem.readByte (8 * a + j) = some (v.extractLsb' (56 - 8 * j) 8)) ∧
  (∀ (s : State) (ws : List InstrWord) (k j : Nat), j < 4 →
    (s.loadProgram ws).imem.readByte (4 * k + j) =
      ws[k]?.map (fun w => w.extractLsb' (24 - 8 * j) 8))

/-! ### Registers (10_state.md) -/

/-- Rule R12: under R0_ZERO register 0 reads as zero and a write to it is discarded, and nothing else
differs: without R0_ZERO, or for any other register, a write of v is what the next read gives
and every other register keeps its value. -/
def Obligations.RegisterZeroIsHardwiredUnderR0Zero : Prop :=
  (∀ (s : State) (v : Word), s.cfg.r0Zero = true →
    s.readReg 0 = (0#64, s) ∧ s.writeReg 0 v = s) ∧
  (∀ (s : State) (i : RegNum) (v : Word), s.cfg.r0Zero = false ∨ i ≠ 0 →
    (s.writeReg i v).readReg i = (v, s.writeReg i v) ∧
    ∀ r, r ≠ i → (s.writeReg i v).reg r = s.reg r ∧ (s.writeReg i v).isWritten r = s.isWritten r)

/-- What a read of a register answers (rules R12, R114). The treatment `draw` is one the spec allows,
its values free (log 6); the treatment `value` is this model's (logs 3, 4). -/
def Obligations.RegisterReads : Prop :=
  ∀ (s : State) (i : RegNum),
    (s.hardwired i = true → s.readReg i = (0#64, s)) ∧
    (s.hardwired i = false → s.isWritten i = true → s.readReg i = (s.reg i, s)) ∧
    (s.hardwired i = false → s.isWritten i = false →
      (s.cfg.unwrittenReg = .draw →
        s.readReg i = (Config.drawnWord s.draws, { s with draws := s.draws + 1 })) ∧
      (s.cfg.unwrittenReg = .value → s.readReg i = (s.reg i, s)))

/-- What stops an instruction, exactly: its own reserved word (rule R50; as a term, log 17), a data
address outside the memory (rule R24), or, for a load, a word without a value under the treatment
`fault` (rule R114; log 5). No instruction is refused, none stops on a register it reads (log 4),
and a step adds FetchFault and IllegalInstruction of the fetched word alone (rule R103). -/
def Obligations.OnlyTheNamedFaultsStop : Prop :=
  (∀ (i : Instr) (s : State) (f : Fault), exec i s = .fault f ↔
    (i.wellFormed = false ∧ f = .illegalInstruction (encode i)) ∨
    (∃ imm, i.dataAddress = some imm ∧ f = .dataAccessFault (effectiveAddress imm) ∧
      (s.cfg.dmemWords ≤ imm.toNat ∨
        (i.storeAddress = none ∧ s.dataWord imm.toNat = none ∧ s.cfg.unwrittenData = .fault)))) ∧
  (∀ (i : Instr) (s : State) (r : Refusal), exec i s ≠ .refused r) ∧
  (∀ (s : State) (f : Fault), step s = .fault f →
    (∃ a, s.fetch = .noInstruction a ∧ f = .fetchFault a) ∨
    (∃ w, s.fetch = .word w ∧
      (f = .illegalInstruction w ∨
        ∃ i imm, decode w = .ok i ∧ i.dataAddress = some imm ∧
          f = .dataAccessFault (effectiveAddress imm))))

/-- Every instruction completes, whatever the registers hold and whether or not they have been written:
its data address, if it has one, must be implemented and, for a load, the word must have a value or
the treatment be `draw` (rules R100, R101, R103, R113; logs 4, 5). -/
def Obligations.EveryInstructionCompletes : Prop :=
  ∀ (i : Instr) (s : State), i.wellFormed = true →
    (∀ imm, i.dataAddress = some imm → imm.toNat < s.cfg.dmemWords) →
    (∀ rD imm, i = .vld rD imm → s.dataWord imm.toNat ≠ none ∨ s.cfg.unwrittenData = .draw) →
    ∃ t, exec i s = .next t

/-- Rule R11, writes: an instruction changes no register but its destination, whole, and marks only
that one written; vsd, vbeq, vbneq and vnop change none. -/
def Obligations.OnlyTheDestinationChanges : Prop :=
  ∀ (i : Instr) (s t : State), exec i s = .next t →
    (∀ r, i.dest ≠ some r → t.reg r = s.reg r ∧ t.isWritten r = s.isWritten r) ∧
    (∀ r, i.dest = some r → s.hardwired r = false → t.isWritten r = true) ∧
    (∀ r, s.hardwired r = true → t.reg r = s.reg r)

/-- Rule R11, reads: changing a register an instruction does not read changes nothing in its outcome
but that register itself, and not even that where it is the destination. The two runs start with
equal draw counters and so draw equal values, which is the model's choice (log 6). -/
def Obligations.UnreadRegistersDoNotMatter : Prop :=
  ∀ (i : Instr) (s t : State) (r : RegNum) (v : Word), r ∉ i.sources → exec i s = .next t →
    ∃ t', exec i { s with regs := s.regs.set r.toNat v r.isLt } = .next t' ∧
      (∀ q, q ≠ r ∨ (i.dest = some r ∧ s.hardwired r = false) → t'.reg q = t.reg q) ∧
      (¬ (i.dest = some r ∧ s.hardwired r = false) → t'.reg r = v) ∧
      t'.written = t.written ∧ t'.pc = t.pc ∧ t'.dmem = t.dmem ∧ t'.imem = t.imem ∧
      t'.imemWords = t.imemWords ∧ t'.cfg = t.cfg ∧ t'.draws = t.draws

/-! ### Lanes (00_scope.md) -/

/-- Rule R5: in the manual's labelling, bit 0 the most significant, lane k is register bits k*size to
k*size + size - 1; conventionally it is (v >> (64 - (k+1)*size)) mod 2^size. -/
def Obligations.LanesFollowTheManualsLabels : Prop :=
  ∀ (ww : Width) (v : Word) (k : Nat), k < ww.lanes →
    (∀ j, j < ww.size →
      (lane v ww.size k).testBit (ww.size - 1 - j) = v.getMsbD (k * ww.size + j)) ∧
    lane v ww.size k = (v.toNat / 2 ^ (64 - (k + 1) * ww.size)) % 2 ^ ww.size ∧
    ww.lanes * ww.size = 64

/-- Rules R7 and R8: double-width lane j is source lanes 2j and 2j+1 together, the even lane the more
significant half. -/
def Obligations.DoubleLaneIsAPairOfLanes : Prop :=
  ∀ (ww : Width) (v : Word) (j : Nat), ww.hasDouble = true → j < ww.lanes / 2 →
    lane v (2 * ww.size) j =
      lane v ww.size (2 * j) * 2 ^ ww.size + lane v ww.size (2 * j + 1) ∧
    2 * j + 1 < ww.lanes

/-! ### Logical and move instructions (40_logical_move.md) -/

/-- Rule R61, vand: its encoding; x[rD] <- x[rA] & x[rB], nothing else changed but the pc. -/
def Obligations.VandWritesTheAnd : Prop :=
  ∀ (ww : Width) (rD rA rB : RegNum),
    decode (0b101010#6 ++ rD ++ rA ++ rB ++ 0#3 ++ ww.bits ++ 0b000001#6)
      = .ok (.vand ww rD rA rB) ∧
    ∀ (s s1 s2 : State) (a b : Word), s.readReg rA = (a, s1) → s1.readReg rB = (b, s2) →
      ∃ t, exec (.vand ww rD rA rB) s = .next t ∧ GivesRegister s t rD (a &&& b) s2.draws

/-- Rule R62, vor: its encoding; x[rD] <- x[rA] | x[rB]. -/
def Obligations.VorWritesTheOr : Prop :=
  ∀ (ww : Width) (rD rA rB : RegNum),
    decode (0b101010#6 ++ rD ++ rA ++ rB ++ 0#3 ++ ww.bits ++ 0b000010#6)
      = .ok (.vor ww rD rA rB) ∧
    ∀ (s s1 s2 : State) (a b : Word), s.readReg rA = (a, s1) → s1.readReg rB = (b, s2) →
      ∃ t, exec (.vor ww rD rA rB) s = .next t ∧ GivesRegister s t rD (a ||| b) s2.draws

/-- Rule R63, vxor: its encoding; x[rD] <- x[rA] ^ x[rB], exclusive OR. -/
def Obligations.VxorWritesTheExclusiveOr : Prop :=
  ∀ (ww : Width) (rD rA rB : RegNum),
    decode (0b101010#6 ++ rD ++ rA ++ rB ++ 0#3 ++ ww.bits ++ 0b000011#6)
      = .ok (.vxor ww rD rA rB) ∧
    ∀ (s s1 s2 : State) (a b : Word), s.readReg rA = (a, s1) → s1.readReg rB = (b, s2) →
      ∃ t, exec (.vxor ww rD rA rB) s = .next t ∧ GivesRegister s t rD (a ^^^ b) s2.draws

/-- Rule R64, vnot: its encoding; x[rD] <- ~x[rA]. -/
def Obligations.VnotWritesTheComplement : Prop :=
  ∀ (ww : Width) (rD rA : RegNum),
    decode (0b101010#6 ++ rD ++ rA ++ 0#5 ++ 0#3 ++ ww.bits ++ 0b000100#6)
      = .ok (.vnot ww rD rA) ∧
    ∀ (s s1 : State) (a : Word), s.readReg rA = (a, s1) →
      ∃ t, exec (.vnot ww rD rA) s = .next t ∧ GivesRegister s t rD (~~~a) s1.draws

/-- Rule R65, vmov: its encoding; x[rD] <- x[rA], all 64 bits. -/
def Obligations.VmovCopiesTheRegister : Prop :=
  ∀ (ww : Width) (rD rA : RegNum),
    decode (0b101010#6 ++ rD ++ rA ++ 0#5 ++ 0#3 ++ ww.bits ++ 0b000101#6)
      = .ok (.vmov ww rD rA) ∧
    ∀ (s s1 : State) (a : Word), s.readReg rA = (a, s1) →
      ∃ t, exec (.vmov ww rD rA) s = .next t ∧ GivesRegister s t rD a s1.draws

/-- Rule R60: for the five bitwise instructions any WW gives the same outcome, and lane by lane, at
every width, the whole-register operation is the manual's lane loop; all four WW values decode. -/
def Obligations.WidthDoesNotMatterForBitwise : Prop :=
  (∀ (ww ww' : Width) (rD rA rB : RegNum) (s : State),
    exec (.vand ww rD rA rB) s = exec (.vand ww' rD rA rB) s ∧
    exec (.vor ww rD rA rB) s = exec (.vor ww' rD rA rB) s ∧
    exec (.vxor ww rD rA rB) s = exec (.vxor ww' rD rA rB) s ∧
    exec (.vnot ww rD rA) s = exec (.vnot ww' rD rA) s ∧
    exec (.vmov ww rD rA) s = exec (.vmov ww' rD rA) s) ∧
  (∀ (ww : Width) (a b : Word) (k : Nat), k < ww.lanes →
    lane (a &&& b) ww.size k = lane a ww.size k &&& lane b ww.size k ∧
    lane (a ||| b) ww.size k = lane a ww.size k ||| lane b ww.size k ∧
    lane (a ^^^ b) ww.size k = lane a ww.size k ^^^ lane b ww.size k ∧
    lane (~~~a) ww.size k = 2 ^ ww.size - 1 - lane a ww.size k) ∧
  (∀ (ww : Width) (rD rA rB : RegNum),
    decode (encode (.vand ww rD rA rB)) = .ok (.vand ww rD rA rB) ∧
    decode (encode (.vor ww rD rA rB)) = .ok (.vor ww rD rA rB) ∧
    decode (encode (.vxor ww rD rA rB)) = .ok (.vxor ww rD rA rB) ∧
    decode (encode (.vnot ww rD rA)) = .ok (.vnot ww rD rA) ∧
    decode (encode (.vmov ww rD rA)) = .ok (.vmov ww rD rA))

/-! ### Add, subtract and multiply (41_add_sub_multiply.md) -/

/-- Rule R66, vadd: its encoding; every lane the sum modulo 2^size, no carry into the next lane. -/
def Obligations.VaddAddsLanes : Prop :=
  ∀ (ww : Width) (rD rA rB : RegNum),
    decode (0b101010#6 ++ rD ++ rA ++ rB ++ 0#3 ++ ww.bits ++ 0b000110#6)
      = .ok (.vadd ww rD rA rB) ∧
    ∀ (s s1 s2 : State) (a b : Word), s.readReg rA = (a, s1) → s1.readReg rB = (b, s2) →
      ∃ t v, exec (.vadd ww rD rA rB) s = .next t ∧ GivesRegister s t rD v s2.draws ∧
        ∀ k, k < ww.lanes →
          lane v ww.size k = (lane a ww.size k + lane b ww.size k) % 2 ^ ww.size

/-- Rule R67, vsub: its encoding; every lane x[rA] minus x[rB] modulo 2^size, which is also x[rA] plus
the complement plus 1. -/
def Obligations.VsubSubtractsLanes : Prop :=
  ∀ (ww : Width) (rD rA rB : RegNum),
    decode (0b101010#6 ++ rD ++ rA ++ rB ++ 0#3 ++ ww.bits ++ 0b000111#6)
      = .ok (.vsub ww rD rA rB) ∧
    ∀ (s s1 s2 : State) (a b : Word), s.readReg rA = (a, s1) → s1.readReg rB = (b, s2) →
      ∃ t v, exec (.vsub ww rD rA rB) s = .next t ∧ GivesRegister s t rD v s2.draws ∧
        ∀ k, k < ww.lanes →
          (lane v ww.size k : Int) =
            ((lane a ww.size k : Int) - lane b ww.size k) % 2 ^ ww.size ∧
          lane v ww.size k =
            (lane a ww.size k + (2 ^ ww.size - 1 - lane b ww.size k) + 1) % 2 ^ ww.size

/-- Rule R68, vmuleu: its encoding; result lane j, of double width, the exact unsigned product of the
even lanes 2j. -/
def Obligations.VmuleuMultipliesEvenLanes : Prop :=
  ∀ (ww : Width) (rD rA rB : RegNum), ww ≠ .d →
    decode (0b101010#6 ++ rD ++ rA ++ rB ++ 0#3 ++ ww.bits ++ 0b001000#6)
      = .ok (.vmuleu ww rD rA rB) ∧
    ∀ (s s1 s2 : State) (a b : Word), s.readReg rA = (a, s1) → s1.readReg rB = (b, s2) →
      ∃ t v, exec (.vmuleu ww rD rA rB) s = .next t ∧ GivesRegister s t rD v s2.draws ∧
        ∀ j, j < ww.lanes / 2 →
          lane v (2 * ww.size) j = lane a ww.size (2 * j) * lane b ww.size (2 * j)

/-- Rule R69, vmulou: its encoding; result lane j, of double width, the exact unsigned product of the
odd lanes 2j + 1. -/
def Obligations.VmulouMultipliesOddLanes : Prop :=
  ∀ (ww : Width) (rD rA rB : RegNum), ww ≠ .d →
    decode (0b101010#6 ++ rD ++ rA ++ rB ++ 0#3 ++ ww.bits ++ 0b001001#6)
      = .ok (.vmulou ww rD rA rB) ∧
    ∀ (s s1 s2 : State) (a b : Word), s.readReg rA = (a, s1) → s1.readReg rB = (b, s2) →
      ∃ t v, exec (.vmulou ww rD rA rB) s = .next t ∧ GivesRegister s t rD v s2.draws ∧
        ∀ j, j < ww.lanes / 2 →
          lane v (2 * ww.size) j = lane a ww.size (2 * j + 1) * lane b ww.size (2 * j + 1)

/-! ### Shifts and rotate (42_shift_rotate.md) -/

/-- Rule R70: a shift uses only the low WW + 3 = log2(size) bits of each lane of x[rB]: two amounts
that agree there, lane by lane, give the same result. -/
def Obligations.OnlyTheLowAmountBitsMatter : Prop :=
  ∀ (ww : Width) (rD rA rB : RegNum) (s s1 s2 s' s1' s2' : State) (a b b' : Word),
    s.readReg rA = (a, s1) → s1.readReg rB = (b, s2) →
    s'.readReg rA = (a, s1') → s1'.readReg rB = (b', s2') →
    (∀ k, k < ww.lanes → lane b ww.size k % 2 ^ (ww.bits.toNat + 3) =
      lane b' ww.size k % 2 ^ (ww.bits.toNat + 3)) →
    ww.size = 2 ^ (ww.bits.toNat + 3) ∧
    ∀ i ∈ [Instr.vsll ww rD rA rB, Instr.vsrl ww rD rA rB, Instr.vsra ww rD rA rB],
      ∃ t t' v, exec i s = .next t ∧ exec i s' = .next t' ∧
        GivesRegister s t rD v s2.draws ∧ GivesRegister s' t' rD v s2'.draws

/-- Rule R71, vsll: its encoding; lane k shifted left by lane k of x[rB] modulo size, zeros entering,
nothing entering the neighbouring lane. -/
def Obligations.VsllShiftsLeft : Prop :=
  ∀ (ww : Width) (rD rA rB : RegNum),
    decode (0b101010#6 ++ rD ++ rA ++ rB ++ 0#3 ++ ww.bits ++ 0b001010#6)
      = .ok (.vsll ww rD rA rB) ∧
    ∀ (s s1 s2 : State) (a b : Word), s.readReg rA = (a, s1) → s1.readReg rB = (b, s2) →
      ∃ t v, exec (.vsll ww rD rA rB) s = .next t ∧ GivesRegister s t rD v s2.draws ∧
        ∀ k, k < ww.lanes →
          lane v ww.size k =
            (lane a ww.size k * 2 ^ (lane b ww.size k % ww.size)) % 2 ^ ww.size

/-- Rule R72, vsrl: its encoding; lane k shifted right by lane k of x[rB] modulo size, zeros
entering. -/
def Obligations.VsrlShiftsRight : Prop :=
  ∀ (ww : Width) (rD rA rB : RegNum),
    decode (0b101010#6 ++ rD ++ rA ++ rB ++ 0#3 ++ ww.bits ++ 0b001011#6)
      = .ok (.vsrl ww rD rA rB) ∧
    ∀ (s s1 s2 : State) (a b : Word), s.readReg rA = (a, s1) → s1.readReg rB = (b, s2) →
      ∃ t v, exec (.vsrl ww rD rA rB) s = .next t ∧ GivesRegister s t rD v s2.draws ∧
        ∀ k, k < ww.lanes →
          lane v ww.size k = lane a ww.size k / 2 ^ (lane b ww.size k % ww.size)

/-- Rule R73, vsra: its encoding; lane k, read as signed, shifted right by lane k of x[rB] modulo size,
rounding toward minus infinity: floor(signed(v) / 2^s) mod 2^size. -/
def Obligations.VsraShiftsRightArithmetic : Prop :=
  ∀ (ww : Width) (rD rA rB : RegNum),
    decode (0b101010#6 ++ rD ++ rA ++ rB ++ 0#3 ++ ww.bits ++ 0b001100#6)
      = .ok (.vsra ww rD rA rB) ∧
    ∀ (s s1 s2 : State) (a b : Word), s.readReg rA = (a, s1) → s1.readReg rB = (b, s2) →
      ∃ t v, exec (.vsra ww rD rA rB) s = .next t ∧ GivesRegister s t rD v s2.draws ∧
        ∀ k, k < ww.lanes →
          (lane v ww.size k : Int) =
            Int.fdiv (signedLane ww.size (lane a ww.size k)) (2 ^ (lane b ww.size k % ww.size)) %
              2 ^ ww.size

/-- Rule R74, vrtth: its encoding; the two halves of every lane exchanged; twice restores. -/
def Obligations.VrtthExchangesHalves : Prop :=
  ∀ (ww : Width) (rD rA : RegNum),
    decode (0b101010#6 ++ rD ++ rA ++ 0#5 ++ 0#3 ++ ww.bits ++ 0b001101#6)
      = .ok (.vrtth ww rD rA) ∧
    ∀ (s s1 : State) (a : Word), s.readReg rA = (a, s1) →
      ∃ t v, exec (.vrtth ww rD rA) s = .next t ∧ GivesRegister s t rD v s1.draws ∧
        (∀ k, k < ww.lanes →
          lane v ww.size k / 2 ^ (ww.size / 2) = lane a ww.size k % 2 ^ (ww.size / 2) ∧
          lane v ww.size k % 2 ^ (ww.size / 2) = lane a ww.size k / 2 ^ (ww.size / 2)) ∧
        (s.hardwired rD = false →
          ∃ u, exec (.vrtth ww rD rD) t = .next u ∧ u.reg rD = a)

/-! ### Divide, modulo, square and square root (43_divide_square_sqrt.md) -/

/-- Rule R75, vdivu: its encoding; every lane the unsigned quotient, or DIVU_ZERO(size, u) for a zero
divisor. -/
def Obligations.VdivuDividesLanes : Prop :=
  ∀ (ww : Width) (rD rA rB : RegNum),
    decode (0b101010#6 ++ rD ++ rA ++ rB ++ 0#3 ++ ww.bits ++ 0b001110#6)
      = .ok (.vdivu ww rD rA rB) ∧
    ∀ (s s1 s2 : State) (a b : Word), s.readReg rA = (a, s1) → s1.readReg rB = (b, s2) →
      ∃ t v, exec (.vdivu ww rD rA rB) s = .next t ∧ GivesRegister s t rD v s2.draws ∧
        ∀ k, k < ww.lanes →
          lane v ww.size k =
            if lane b ww.size k ≠ 0 then lane a ww.size k / lane b ww.size k
            else (Config.divuZero ww.size (BitVec.ofNat ww.size (lane a ww.size k))).toNat

/-- Rule R76, vmodu: its encoding; every lane the unsigned remainder, or MODU_ZERO(size, u) for a zero
divisor; with a non-zero divisor d the remainder is below d and completes the quotient. -/
def Obligations.VmoduTakesRemainders : Prop :=
  ∀ (ww : Width) (rD rA rB : RegNum),
    decode (0b101010#6 ++ rD ++ rA ++ rB ++ 0#3 ++ ww.bits ++ 0b001111#6)
      = .ok (.vmodu ww rD rA rB) ∧
    ∀ (s s1 s2 : State) (a b : Word), s.readReg rA = (a, s1) → s1.readReg rB = (b, s2) →
      ∃ t v, exec (.vmodu ww rD rA rB) s = .next t ∧ GivesRegister s t rD v s2.draws ∧
        ∀ k, k < ww.lanes →
          (lane v ww.size k =
            if lane b ww.size k ≠ 0 then lane a ww.size k % lane b ww.size k
            else (Config.moduZero ww.size (BitVec.ofNat ww.size (lane a ww.size k))).toNat) ∧
          (lane b ww.size k ≠ 0 → lane v ww.size k < lane b ww.size k ∧
            lane a ww.size k = lane a ww.size k / lane b ww.size k * lane b ww.size k
              + lane v ww.size k)

/-- Rule R77: a zero divisor raises no fault; its lane gets DIVU_ZERO(size, u) or MODU_ZERO(size, u),
a function of the lane size and the dividend lane alone; a lane's result depends on nothing but
that lane of the two operands, not on other lanes and not on earlier instructions. -/
def Obligations.DivisionByZeroStaysInItsLane : Prop :=
  ∀ (ww : Width) (rD rA rB rD' rA' rB' : RegNum) (s s1 s2 s' s1' s2' : State) (a b a' b' : Word),
    s.readReg rA = (a, s1) → s1.readReg rB = (b, s2) →
    s'.readReg rA' = (a', s1') → s1'.readReg rB' = (b', s2') →
    ∃ tq vq tr vr tq' vq' tr' vr',
      exec (.vdivu ww rD rA rB) s = .next tq ∧ GivesRegister s tq rD vq s2.draws ∧
      exec (.vmodu ww rD rA rB) s = .next tr ∧ GivesRegister s tr rD vr s2.draws ∧
      exec (.vdivu ww rD' rA' rB') s' = .next tq' ∧ GivesRegister s' tq' rD' vq' s2'.draws ∧
      exec (.vmodu ww rD' rA' rB') s' = .next tr' ∧ GivesRegister s' tr' rD' vr' s2'.draws ∧
      ∀ k, k < ww.lanes →
        (lane b ww.size k = 0 →
          lane vq ww.size k =
            (Config.divuZero ww.size (BitVec.ofNat ww.size (lane a ww.size k))).toNat ∧
          lane vr ww.size k =
            (Config.moduZero ww.size (BitVec.ofNat ww.size (lane a ww.size k))).toNat) ∧
        (lane b ww.size k ≠ 0 →
          lane vq ww.size k = lane a ww.size k / lane b ww.size k ∧
          lane vr ww.size k = lane a ww.size k % lane b ww.size k) ∧
        (lane a ww.size k = lane a' ww.size k → lane b ww.size k = lane b' ww.size k →
          lane vq ww.size k = lane vq' ww.size k ∧ lane vr ww.size k = lane vr' ww.size k)

/-- Rule R78, vsqeu: its encoding; result lane j, of double width, the exact square of the even lane
2j; the same as vmuleu rD, rA, rA where x[rA] holds a value. -/
def Obligations.VsqeuSquaresEvenLanes : Prop :=
  ∀ (ww : Width) (rD rA : RegNum), ww ≠ .d →
    decode (0b101010#6 ++ rD ++ rA ++ 0#5 ++ 0#3 ++ ww.bits ++ 0b010000#6)
      = .ok (.vsqeu ww rD rA) ∧
    ∀ (s s1 : State) (a : Word), s.readReg rA = (a, s1) →
      (∃ t v, exec (.vsqeu ww rD rA) s = .next t ∧ GivesRegister s t rD v s1.draws ∧
        ∀ j, j < ww.lanes / 2 →
          lane v (2 * ww.size) j = lane a ww.size (2 * j) ^ 2) ∧
      (s.holds rA = true → exec (.vsqeu ww rD rA) s = exec (.vmuleu ww rD rA rA) s)

/-- Rule R79, vsqou: its encoding; result lane j, of double width, the exact square of the odd lane
2j + 1; the same as vmulou rD, rA, rA where x[rA] holds a value. -/
def Obligations.VsqouSquaresOddLanes : Prop :=
  ∀ (ww : Width) (rD rA : RegNum), ww ≠ .d →
    decode (0b101010#6 ++ rD ++ rA ++ 0#5 ++ 0#3 ++ ww.bits ++ 0b010001#6)
      = .ok (.vsqou ww rD rA) ∧
    ∀ (s s1 : State) (a : Word), s.readReg rA = (a, s1) →
      (∃ t v, exec (.vsqou ww rD rA) s = .next t ∧ GivesRegister s t rD v s1.draws ∧
        ∀ j, j < ww.lanes / 2 →
          lane v (2 * ww.size) j = lane a ww.size (2 * j + 1) ^ 2) ∧
      (s.holds rA = true → exec (.vsqou ww rD rA) s = exec (.vmulou ww rD rA rA) s)

/-- Rule R80, vsqrtu: its encoding; every lane the largest s with s * s <= v, so the upper half of the
result lane is zero. -/
def Obligations.VsqrtuTakesFloorRoots : Prop :=
  ∀ (ww : Width) (rD rA : RegNum),
    decode (0b101010#6 ++ rD ++ rA ++ 0#5 ++ 0#3 ++ ww.bits ++ 0b010010#6)
      = .ok (.vsqrtu ww rD rA) ∧
    ∀ (s s1 : State) (a : Word), s.readReg rA = (a, s1) →
      ∃ t v, exec (.vsqrtu ww rD rA) s = .next t ∧ GivesRegister s t rD v s1.draws ∧
        ∀ k, k < ww.lanes →
          lane v ww.size k * lane v ww.size k ≤ lane a ww.size k ∧
          lane a ww.size k < (lane v ww.size k + 1) * (lane v ww.size k + 1) ∧
          lane v ww.size k < 2 ^ (ww.size / 2)

/-! ### Load and store (44_load_store.md, 20_memory.md) -/

/-- Rule R23: EA = {16{0}, Immediate_address}, so 0 <= EA <= 65535, every index being reached. -/
def Obligations.EffectiveAddressIsZeroExtended : Prop :=
  (∀ imm : Imm16, effectiveAddress imm = 0#16 ++ imm ∧
    (effectiveAddress imm).toNat = imm.toNat ∧ (effectiveAddress imm).toNat ≤ 65535) ∧
  (∀ a : Nat, a ≤ 65535 → ∃ imm : Imm16, (effectiveAddress imm).toNat = a)

/-- Rule R82, vld, with rules R24 and R114: its encoding; an implemented word's value goes to x[rD],
the memory unchanged and no register read; a word outside the memory raises DataAccessFault(EA). A
word nothing has given a value is drawn or faults as a parameter says: rule R114 permits either, and
the parameter and the form of the draw are the model's choices (logs 5, 6). -/
def Obligations.VldLoadsTheWord : Prop :=
  ∀ (rD : RegNum) (imm : Imm16),
    decode (0b100000#6 ++ rD ++ 0#5 ++ imm) = .ok (.vld rD imm) ∧
    ∀ s : State,
      ((effectiveAddress imm).toNat < s.cfg.dmemWords →
        (∀ v, s.dataWord (effectiveAddress imm).toNat = some v →
          ∃ t, exec (.vld rD imm) s = .next t ∧ GivesRegister s t rD v s.draws) ∧
        (s.dataWord (effectiveAddress imm).toNat = none → s.cfg.unwrittenData = .draw →
          ∃ t, exec (.vld rD imm) s = .next t ∧
            GivesRegister s t rD (Config.drawnWord s.draws) (s.draws + 1)) ∧
        (s.dataWord (effectiveAddress imm).toNat = none → s.cfg.unwrittenData = .fault →
          exec (.vld rD imm) s = .fault (.dataAccessFault (effectiveAddress imm)))) ∧
      (s.cfg.dmemWords ≤ (effectiveAddress imm).toNat →
        exec (.vld rD imm) s = .fault (.dataAccessFault (effectiveAddress imm)))

/-- Rule R83, vsd, with rule R24: its encoding; all 64 bits of x[rD] go to exactly one implemented
word, no register written and every other byte of memory as before; outside the memory it raises
DataAccessFault(EA). -/
def Obligations.VsdStoresTheRegister : Prop :=
  ∀ (rD : RegNum) (imm : Imm16),
    decode (0b100001#6 ++ rD ++ 0#5 ++ imm) = .ok (.vsd rD imm) ∧
    ∀ (s s1 : State) (v : Word), s.readReg rD = (v, s1) →
      ((effectiveAddress imm).toNat < s.cfg.dmemWords →
        ∃ t, exec (.vsd rD imm) s = .next t ∧
          GivesDataWord s t (effectiveAddress imm).toNat v s1.draws) ∧
      (s.cfg.dmemWords ≤ (effectiveAddress imm).toNat →
        exec (.vsd rD imm) s = .fault (.dataAccessFault (effectiveAddress imm)))

/-- A load returns the value of the latest store to its index: vsd r, a; then any instruction that
does not store to a; then vld q, a gives what was stored, and loads of other indexes are not
disturbed (rules R20, R30, R31). -/
def Obligations.LoadReturnsTheLatestStore : Prop :=
  (∀ (r q : RegNum) (imm : Imm16) (i : Instr) (s s1 t u : State) (v : Word),
    s.readReg r = (v, s1) → exec (.vsd r imm) s = .next t → exec i t = .next u →
    i.storeAddress ≠ some imm →
    ∃ z, exec (.vld q imm) u = .next z ∧ (u.hardwired q = false → z.reg q = v)) ∧
  (∀ (r : RegNum) (imm imm' : Imm16) (s t : State), exec (.vsd r imm) s = .next t → imm' ≠ imm →
    t.dataWord imm'.toNat = s.dataWord imm'.toNat)

/-- vld and vsd alone reach the data memory, and vsd alone changes it: every other instruction leaves
every byte of it and does the same whatever it holds (rules R20, R84). The last clause compares two
runs with equal draw counters, which draw equal values by the model's choice (log 6). -/
def Obligations.OnlyLoadAndStoreReachData : Prop :=
  (∀ (i : Instr) (s t : State), exec i s = .next t → i.storeAddress = none →
    ∀ x, t.dmem.readByte x = s.dmem.readByte x) ∧
  (∀ (i : Instr) (s t : State) (imm : Imm16), exec i s = .next t → i.storeAddress = some imm →
    ∀ x, x < 8 * (effectiveAddress imm).toNat ∨ 8 * (effectiveAddress imm).toNat + 8 ≤ x →
      t.dmem.readByte x = s.dmem.readByte x) ∧
  (∀ (i : Instr) (s t : State) (m : Memory), exec i s = .next t → i.dataAddress = none →
    exec i { s with dmem := m } = .next { t with dmem := m })

/-! ### Branches and vnop (45_branch_nop.md) -/

/-- Rule R87, vbeq: its encoding; to the absolute target if all 64 bits of x[rD] are zero, else to the
next instruction; no register and no memory changed. -/
def Obligations.VbeqBranchesOnZero : Prop :=
  ∀ (rD : RegNum) (imm : Imm16),
    decode (0b100010#6 ++ rD ++ 0#5 ++ imm) = .ok (.vbeq rD imm) ∧
    ∀ (s s1 : State) (v : Word), s.readReg rD = (v, s1) →
      ∃ t, exec (.vbeq rD imm) s = .next t ∧
        GivesPc s t (if v = 0#64 then .at (0#16 ++ imm) else s.pc.next s.cfg.pcStep) s1.draws

/-- Rule R88, vbneq: its encoding; to the absolute target if some bit of x[rD] is one, else to the next
instruction; no register and no memory changed. -/
def Obligations.VbneqBranchesOnNonzero : Prop :=
  ∀ (rD : RegNum) (imm : Imm16),
    decode (0b100011#6 ++ rD ++ 0#5 ++ imm) = .ok (.vbneq rD imm) ∧
    ∀ (s s1 : State) (v : Word), s.readReg rD = (v, s1) →
      ∃ t, exec (.vbneq rD imm) s = .next t ∧
        GivesPc s t (if v = 0#64 then s.pc.next s.cfg.pcStep else .at (0#16 ++ imm)) s1.draws

/-- Rule R89, vnop: the one word 0xF0000000; in every state only the pc advances, no register or
memory read or written. -/
def Obligations.VnopOnlyAdvances : Prop :=
  (∀ w : InstrWord, decode w = .ok .vnop ↔ w = 0xF0000000#32) ∧
  ∀ s : State, ∃ t, exec .vnop s = .next t ∧ GivesPc s t (s.pc.next s.cfg.pcStep) s.draws

/-- Rule R85: vbeq and vbneq are the only control transfers; every other instruction leaves the pc at
the sequential advance, and a branch leaves it there or at the target in its word. -/
def Obligations.OnlyBranchesTransferControl : Prop :=
  ∀ (i : Instr) (s t : State), exec i s = .next t →
    (i.target = none → t.pc = s.pc.next s.cfg.pcStep) ∧
    (∀ imm, i.target = some imm →
      t.pc = s.pc.next s.cfg.pcStep ∨ t.pc = .at (0#16 ++ imm))

/-- Rule R15: the sequential advance adds PC_STEP, 1 or 4; every address a word is fetched from is a
multiple of it; the advance does not wrap: at 2^32 there is no instruction and the fetch faults
(unless the image ends there, rule R126); a taken branch to an address that is no multiple of
PC_STEP faults at the next fetch. -/
def Obligations.AdvanceDoesNotWrap : Prop :=
  (∀ (i : Instr) (s t : State), exec i s = .next t →
    t.pc = s.pc.next s.cfg.pcStep ∨ ∃ imm, i.target = some imm ∧ t.pc = branchTarget imm) ∧
  (∀ (p : Pc) (step : PcStep), p.toNat + step.toNat < 2 ^ 32 →
    (p.next step).toNat = p.toNat + step.toNat) ∧
  (∀ (p : Pc) (step : PcStep), 2 ^ 32 ≤ p.toNat + step.toNat → p.next step = .past) ∧
  (∀ st : PcStep, st.toNat = 1 ∨ st.toNat = 4) ∧
  (∀ (s : State) (w : InstrWord), s.fetch = .word w → s.pc.toNat % s.cfg.pcStep.toNat = 0) ∧
  (∀ s : State, s.pc = .past → s.endPc ≠ 2 ^ 32 →
    step s = .fault (.fetchFault (2 ^ 32))) ∧
  (∀ (i : Instr) (s t : State) (imm : Imm16), exec i s = .next t → i.target = some imm →
    t.pc = branchTarget imm → imm.toNat % s.cfg.pcStep.toNat ≠ 0 →
    step t = .fault (.fetchFault imm.toNat))

/-- No hazards: a vnop before an instruction changes nothing in what it computes; registers, memories
and draws come out the same, the pc one instruction further unless the branch is taken, and then
at the same target (rules R89, R128, R129; D15 is the spec's own decision, log 19). That the drawn
values come out the same in both runs is the model's choice (log 6). -/
def Obligations.VnopInsertionChangesNothing : Prop :=
  ∀ (i : Instr) (s n t : State), exec .vnop s = .next n → exec i s = .next t →
    ∃ u, exec i n = .next u ∧ u = { t with pc := u.pc } ∧
      ((u.pc = n.pc.next s.cfg.pcStep ∧ t.pc = s.pc.next s.cfg.pcStep) ∨
        (∃ imm, i.target = some imm ∧ u.pc = branchTarget imm ∧ t.pc = branchTarget imm))

/-- The idioms of rule R56, for a register that holds a value: vxord or vsubd of a register with
itself clears; a cleared register complemented is all ones; vbeq then vbneq on one register
goes to the target in every case. -/
def Obligations.IdiomsDoWhatTheySay : Prop :=
  (∀ (rD rA : RegNum) (s : State), s.holds rA = true → s.hardwired rD = false →
    ∃ t u z, exec (.vxor .d rD rA rA) s = .next t ∧ t.reg rD = 0#64 ∧
      exec (.vsub .d rD rA rA) s = .next u ∧ u.reg rD = 0#64 ∧
      exec (.vnot .d rD rD) t = .next z ∧ z.reg rD = 0xFFFFFFFFFFFFFFFF#64) ∧
  (∀ (r : RegNum) (imm : Imm16) (s : State), s.holds r = true →
    ∃ t, exec (.vbeq r imm) s = .next t ∧
      (t.pc = .at (0#16 ++ imm) ∨
        ∃ u, exec (.vbneq r imm) t = .next u ∧ u.pc = .at (0#16 ++ imm)))
end

