-- ==== Sys2Proof/Laws/Decode.lean ====
section
/-! SUPPORT. The fields of the two word layouts, read back. -/

namespace Sys2Proof

@[simp] theorem Width.ofBits_bits (ww : Width) : Width.ofBits ww.bits = ww := by cases ww <;> rfl

@[simp] theorem Width.bits_ofBits (b : BitVec 2) : (Width.ofBits b).bits = b := by
  revert b; decide

section RType
variable (rD rA rB : RegNum) (ww : Width) (f : BitVec 6)

@[simp] theorem fieldOp_rWord : fieldOp (rWord rD rA rB ww f) = 0b101010#6 := by
  ext i hi; simp [fieldOp, rWord]; grind
@[simp] theorem fieldRD_rWord : fieldRD (rWord rD rA rB ww f) = rD := by
  ext i hi; simp [fieldRD, rWord]; grind
@[simp] theorem fieldRA_rWord : fieldRA (rWord rD rA rB ww f) = rA := by
  ext i hi; simp [fieldRA, rWord]; grind
@[simp] theorem fieldRB_rWord : fieldRB (rWord rD rA rB ww f) = rB := by
  ext i hi; simp [fieldRB, rWord]; grind
@[simp] theorem fieldZero_rWord : fieldZero (rWord rD rA rB ww f) = 0#3 := by
  ext i hi; simp [fieldZero, rWord]; grind
@[simp] theorem fieldWW_rWord : fieldWW (rWord rD rA rB ww f) = ww.bits := by
  ext i hi; simp [fieldWW, rWord]; grind
@[simp] theorem fieldFunct_rWord : fieldFunct (rWord rD rA rB ww f) = f := by
  ext i hi; simp [fieldFunct, rWord]; grind

end RType

section MType
variable (op : BitVec 6) (rD : RegNum) (imm : Imm16)

@[simp] theorem fieldOp_mWord : fieldOp (mWord op rD imm) = op := by
  ext i hi; simp [fieldOp, mWord]; grind
@[simp] theorem fieldRD_mWord : fieldRD (mWord op rD imm) = rD := by
  ext i hi; simp [fieldRD, mWord]; grind
@[simp] theorem fieldRA_mWord : fieldRA (mWord op rD imm) = 0#5 := by
  ext i hi; simp [fieldRA, mWord]; grind
@[simp] theorem fieldImm_mWord : fieldImm (mWord op rD imm) = imm := by
  ext i hi; simp [fieldImm, mWord]; grind

end MType

/-- A word is its R-type fields put together (rule R36). -/
theorem rFields_append (w : InstrWord) :
    fieldOp w ++ fieldRD w ++ fieldRA w ++ fieldRB w ++ fieldZero w ++ fieldWW w ++ fieldFunct w
      = w := by
  apply BitVec.eq_of_getLsbD_eq
  intro i hi
  simp only [fieldOp, fieldRD, fieldRA, fieldRB, fieldZero, fieldWW, fieldFunct,
    BitVec.getLsbD_append, BitVec.getLsbD_extractLsb']
  grind

/-- A word is its M-type fields put together (rule R37). -/
theorem mFields_append (w : InstrWord) :
    fieldOp w ++ fieldRD w ++ fieldRA w ++ fieldImm w = w := by
  apply BitVec.eq_of_getLsbD_eq
  intro i hi
  simp only [fieldOp, fieldRD, fieldRA, fieldImm, BitVec.getLsbD_append,
    BitVec.getLsbD_extractLsb']
  grind

/-- The fixed bits of a three-operand word (rule R46). -/
theorem rWord_and_mask (rD rA rB : RegNum) (ww : Width) (f : BitVec 6) :
    rWord rD rA rB ww f &&& 0xFC00073F#32 = 0xA8000000#32 ||| f.setWidth 32 := by
  apply BitVec.eq_of_getLsbD_eq
  intro i hi
  simp only [rWord, BitVec.getLsbD_append, BitVec.getLsbD_and, BitVec.getLsbD_or,
    BitVec.getLsbD_setWidth]
  interval_cases i <;> simp

/-- The fixed bits of a one-source word (rule R46). -/
theorem rWord_and_mask_oneSource (rD rA : RegNum) (ww : Width) (f : BitVec 6) :
    rWord rD rA 0#5 ww f &&& 0xFC00FF3F#32 = 0xA8000000#32 ||| f.setWidth 32 := by
  apply BitVec.eq_of_getLsbD_eq
  intro i hi
  simp only [rWord, BitVec.getLsbD_append, BitVec.getLsbD_and, BitVec.getLsbD_or,
    BitVec.getLsbD_setWidth]
  interval_cases i <;> simp

/-- The fixed bits of an M-type word (rule R46). -/
theorem mWord_and_mask (op : BitVec 6) (rD : RegNum) (imm : Imm16) :
    mWord op rD imm &&& 0xFC1F0000#32 = op ++ 0#26 := by
  apply BitVec.eq_of_getLsbD_eq
  intro i hi
  simp only [mWord, BitVec.getLsbD_append, BitVec.getLsbD_and]
  interval_cases i <;> simp

end Sys2Proof
end

