-- ==== Sys2Proof/Laws/Memory.lean ====
section
/-! SUPPORT. The laws of a memory: a read after a write to the same place, a write leaves every other place alone, and every write keeps the canonical form. -/

namespace Sys2Proof.Machine

/-- Reading back a byte after a write: the byte written at that address, the old one elsewhere. -/
@[simp] theorem Memory.readByte_writeByte (m : Memory) (x y : Nat) (v : Byte) :
    (m.writeByte x v).readByte y = if y = x then some v else m.readByte y := by
  induction m with
  | nil => simp [Memory.writeByte, Memory.readByte, eq_comm]
  | cons c m ih =>
    obtain ⟨a, b⟩ := c
    simp only [Memory.writeByte]
    split
    · simp [Memory.readByte, eq_comm]
    · split
      · next h => subst h; simp only [Memory.readByte]; split <;> simp_all [eq_comm]
      · next h =>
        simp only [Memory.readByte, ih]
        by_cases hy : a = y
        · have : ¬ y = x := by omega
          simp [hy, this]
        · simp [hy]

/-- The addresses listed after a write are the written one and the old ones. -/
theorem Memory.mem_writeByte {m : Memory} {x : Nat} {v : Byte} {c : Host.Cell}
    (h : c ∈ m.writeByte x v) : c.1 = x ∨ c ∈ m := by
  induction m with
  | nil => simp_all [Memory.writeByte]
  | cons d m ih =>
    obtain ⟨a, b⟩ := d
    simp only [Memory.writeByte] at h
    split at h
    · simp only [List.mem_cons] at h ⊢
      rcases h with rfl | h | h
      · exact .inl rfl
      · exact .inr (.inl h)
      · exact .inr (.inr h)
    · split at h
      · simp only [List.mem_cons] at h ⊢
        rcases h with rfl | h
        · exact .inl rfl
        · exact .inr (.inr h)
      · simp only [List.mem_cons] at h ⊢
        rcases h with rfl | h
        · exact .inr (.inl rfl)
        · exact (ih h).imp id .inr

/-- A write keeps the canonical form. -/
theorem Memory.wf_writeByte {m : Memory} (h : m.wf) (x : Nat) (v : Byte) :
    (m.writeByte x v).wf := by
  induction m with
  | nil => simp [Memory.writeByte, Memory.wf]
  | cons d m ih =>
    obtain ⟨a, b⟩ := d
    simp only [Memory.wf, List.pairwise_cons] at h ih ⊢
    simp only [Memory.writeByte]
    split
    · next hx =>
      simp only [List.pairwise_cons, List.mem_cons]
      refine ⟨?_, h.1, h.2⟩
      rintro c (rfl | hc)
      · exact hx
      · exact Nat.lt_trans hx (h.1 c hc)
    · split
      · next hx =>
        subst hx
        simp only [List.pairwise_cons]
        exact ⟨h.1, h.2⟩
      · next h1 h2 =>
        simp only [List.pairwise_cons]
        refine ⟨fun c hc => ?_, ih h.2⟩
        rcases Memory.mem_writeByte hc with e | hc
        · show a < c.1
          omega
        · exact h.1 c hc

/-- Writing n bytes leaves every other byte alone. -/
theorem Memory.readByte_writeBE_ne (m : Memory) (x n v y : Nat) (h : y < x ∨ x + n ≤ y) :
    (m.writeBE x n v).readByte y = m.readByte y := by
  induction n generalizing v with
  | zero => rfl
  | succ n ih =>
    have hy : y ≠ x + n := by omega
    rw [Memory.writeBE, Memory.readByte_writeByte, if_neg hy, ih _ (by omega)]

/-- Byte j of the n bytes written is the value's byte j, the most significant being byte 0. -/
theorem Memory.readByte_writeBE (m : Memory) (x n v j : Nat) (h : j < n) :
    (m.writeBE x n v).readByte (x + j) = some (BitVec.ofNat 8 (v / 256 ^ (n - 1 - j))) := by
  induction n generalizing v with
  | zero => omega
  | succ n ih =>
    rw [Memory.writeBE, Memory.readByte_writeByte]
    by_cases hj : j = n
    · subst hj; simp
    · have hne : x + j ≠ x + n := by omega
      rw [if_neg hne, ih _ (by omega), Nat.div_div_eq_div_mul,
        show n + 1 - 1 - j = (n - 1 - j) + 1 by omega, pow_succ']

/-- Writing n bytes keeps the canonical form. -/
theorem Memory.wf_writeBE {m : Memory} (h : m.wf) (x n v : Nat) : (m.writeBE x n v).wf := by
  induction n generalizing v with
  | zero => exact h
  | succ n ih => exact Memory.wf_writeByte (ih _) _ _

/-- The addresses listed after writing n bytes are those n and the old ones. -/
theorem Memory.mem_writeBE {m : Memory} {x n v : Nat} {c : Host.Cell}
    (h : c ∈ m.writeBE x n v) : (x ≤ c.1 ∧ c.1 < x + n) ∨ c ∈ m := by
  induction n generalizing v with
  | zero => exact .inr h
  | succ n ih =>
    rcases Memory.mem_writeByte h with e | h
    · omega
    · rcases ih h with e | h
      · omega
      · exact .inr h

/-- A read of n bytes depends on those bytes alone. -/
theorem Memory.readBE_congr {m m' : Memory} {x n : Nat}
    (h : ∀ j, j < n → m.readByte (x + j) = m'.readByte (x + j)) : m.readBE x n = m'.readBE x n := by
  induction n with
  | zero => rfl
  | succ n ih =>
    simp only [Memory.readBE, ih fun j hj => h j (by omega), h n (by omega)]

/-- Reading back the n bytes just written gives the value, narrowed to n bytes. -/
theorem Memory.readBE_writeBE (m : Memory) (x n v : Nat) :
    (m.writeBE x n v).readBE x n = some (v % 256 ^ n) := by
  induction n generalizing v with
  | zero => simp [Memory.readBE, Nat.mod_one]
  | succ n ih =>
    have hlo : (m.writeBE x (n + 1) v).readByte (x + n) = some (BitVec.ofNat 8 v) := by
      simp [Memory.writeBE]
    have hhi : (m.writeBE x (n + 1) v).readBE x n = some (v / 256 % 256 ^ n) := by
      rw [← ih (v / 256)]
      refine Memory.readBE_congr fun j hj => ?_
      have hne : x + j ≠ x + n := by omega
      simp only [Memory.writeBE, Memory.readByte_writeByte, if_neg hne]
    simp only [Memory.readBE, hhi, hlo, BitVec.toNat_ofNat, Option.some.injEq]
    rw [show 256 ^ (n + 1) = 256 * 256 ^ n from pow_succ' 256 n, Nat.mod_mul]
    omega

/-- Reading n bytes outside the n' bytes just written gives what it gave before. -/
theorem Memory.readBE_writeBE_disjoint (m : Memory) (x n v y n' : Nat)
    (h : y + n' ≤ x ∨ x + n ≤ y) : (m.writeBE x n v).readBE y n' = m.readBE y n' :=
  Memory.readBE_congr fun j hj => Memory.readByte_writeBE_ne m x n v (y + j) (by omega)

/-! ### Data words -/

/-- A load from the word just stored gives the stored value; every other word is unchanged. -/
theorem State.dataWord_storeWord (s : State) (a b : Nat) (v : Word) :
    (s.storeWord a v).dataWord b = if b = a then some v else s.dataWord b := by
  by_cases h : b = a
  · subst h
    simp only [State.dataWord, State.storeWord, Memory.readBE_writeBE, Option.map_some,
      if_true, Option.some.injEq]
    apply BitVec.eq_of_toNat_eq
    simp only [BitVec.toNat_ofNat]
    have := v.isLt
    omega
  · simp only [State.dataWord, State.storeWord, if_neg h]
    rw [Memory.readBE_writeBE_disjoint _ _ _ _ _ _ (by omega)]

end Sys2Proof.Machine
end

