-- ==== Sys2Proof/Laws/State.lean ====
section
/-! SUPPORT. What each named update of the state does to each field, and to the register accessors, so that no later proof unfolds a record update. -/

namespace Sys2Proof.Machine

/-! ### The sequential advance and a taken branch change the pc alone -/

@[simp] theorem State.advance_cfg (s : State) : (s.advance).cfg = s.cfg := rfl
@[simp] theorem State.advance_regs (s : State) : (s.advance).regs = s.regs := rfl
@[simp] theorem State.advance_written (s : State) : (s.advance).written = s.written := rfl
@[simp] theorem State.advance_pc (s : State) : (s.advance).pc = s.pc.next s.cfg.pcStep := rfl
@[simp] theorem State.advance_dmem (s : State) : (s.advance).dmem = s.dmem := rfl
@[simp] theorem State.advance_imem (s : State) : (s.advance).imem = s.imem := rfl
@[simp] theorem State.advance_imemWords (s : State) : (s.advance).imemWords = s.imemWords := rfl
@[simp] theorem State.advance_draws (s : State) : (s.advance).draws = s.draws := rfl

@[simp] theorem State.branchTo_cfg (s : State) (imm : Imm16) : (s.branchTo imm).cfg = s.cfg := rfl
@[simp] theorem State.branchTo_regs (s : State) (imm : Imm16) : (s.branchTo imm).regs = s.regs := rfl
@[simp] theorem State.branchTo_written (s : State) (imm : Imm16) : (s.branchTo imm).written = s.written := rfl
@[simp] theorem State.branchTo_pc (s : State) (imm : Imm16) : (s.branchTo imm).pc = branchTarget imm := rfl
@[simp] theorem State.branchTo_dmem (s : State) (imm : Imm16) : (s.branchTo imm).dmem = s.dmem := rfl
@[simp] theorem State.branchTo_imem (s : State) (imm : Imm16) : (s.branchTo imm).imem = s.imem := rfl
@[simp] theorem State.branchTo_imemWords (s : State) (imm : Imm16) : (s.branchTo imm).imemWords = s.imemWords := rfl
@[simp] theorem State.branchTo_draws (s : State) (imm : Imm16) : (s.branchTo imm).draws = s.draws := rfl

/-! ### A store changes the data memory alone -/

@[simp] theorem State.storeWord_cfg (s : State) (a : Nat) (v : Word) : (s.storeWord a v).cfg = s.cfg := rfl
@[simp] theorem State.storeWord_regs (s : State) (a : Nat) (v : Word) : (s.storeWord a v).regs = s.regs := rfl
@[simp] theorem State.storeWord_written (s : State) (a : Nat) (v : Word) : (s.storeWord a v).written = s.written := rfl
@[simp] theorem State.storeWord_pc (s : State) (a : Nat) (v : Word) : (s.storeWord a v).pc = s.pc := rfl
@[simp] theorem State.storeWord_dmem (s : State) (a : Nat) (v : Word) : (s.storeWord a v).dmem = s.dmem.writeBE (8 * a) 8 v.toNat := rfl
@[simp] theorem State.storeWord_imem (s : State) (a : Nat) (v : Word) : (s.storeWord a v).imem = s.imem := rfl
@[simp] theorem State.storeWord_imemWords (s : State) (a : Nat) (v : Word) : (s.storeWord a v).imemWords = s.imemWords := rfl
@[simp] theorem State.storeWord_draws (s : State) (a : Nat) (v : Word) : (s.storeWord a v).draws = s.draws := rfl

/-! ### A draw changes the draw counter alone -/

@[simp] theorem State.draw_cfg (s : State) : (s.draw.2).cfg = s.cfg := rfl
@[simp] theorem State.draw_regs (s : State) : (s.draw.2).regs = s.regs := rfl
@[simp] theorem State.draw_written (s : State) : (s.draw.2).written = s.written := rfl
@[simp] theorem State.draw_pc (s : State) : (s.draw.2).pc = s.pc := rfl
@[simp] theorem State.draw_dmem (s : State) : (s.draw.2).dmem = s.dmem := rfl
@[simp] theorem State.draw_imem (s : State) : (s.draw.2).imem = s.imem := rfl
@[simp] theorem State.draw_imemWords (s : State) : (s.draw.2).imemWords = s.imemWords := rfl
@[simp] theorem State.draw_draws (s : State) : (s.draw.2).draws = s.draws + 1 := rfl

/-! ### A register write changes the registers and their written marks alone -/

@[simp] theorem State.writeReg_cfg (s : State) (i : RegNum) (v : Word) : (s.writeReg i v).cfg = s.cfg := by
  unfold State.writeReg; split <;> rfl
@[simp] theorem State.writeReg_pc (s : State) (i : RegNum) (v : Word) : (s.writeReg i v).pc = s.pc := by
  unfold State.writeReg; split <;> rfl
@[simp] theorem State.writeReg_dmem (s : State) (i : RegNum) (v : Word) : (s.writeReg i v).dmem = s.dmem := by
  unfold State.writeReg; split <;> rfl
@[simp] theorem State.writeReg_imem (s : State) (i : RegNum) (v : Word) : (s.writeReg i v).imem = s.imem := by
  unfold State.writeReg; split <;> rfl
@[simp] theorem State.writeReg_imemWords (s : State) (i : RegNum) (v : Word) : (s.writeReg i v).imemWords = s.imemWords := by
  unfold State.writeReg; split <;> rfl
@[simp] theorem State.writeReg_draws (s : State) (i : RegNum) (v : Word) : (s.writeReg i v).draws = s.draws := by
  unfold State.writeReg; split <;> rfl

/-! ### Registers through their accessors -/

@[simp] theorem State.advance_reg (s : State) (r : RegNum) : s.advance.reg r = s.reg r := rfl
@[simp] theorem State.advance_isWritten (s : State) (r : RegNum) : s.advance.isWritten r = s.isWritten r := rfl
@[simp] theorem State.advance_hardwired (s : State) (r : RegNum) : s.advance.hardwired r = s.hardwired r := rfl
@[simp] theorem State.branchTo_reg (s : State) (imm : Imm16) (r : RegNum) : (s.branchTo imm).reg r = s.reg r := rfl
@[simp] theorem State.branchTo_isWritten (s : State) (imm : Imm16) (r : RegNum) : (s.branchTo imm).isWritten r = s.isWritten r := rfl
@[simp] theorem State.branchTo_hardwired (s : State) (imm : Imm16) (r : RegNum) : (s.branchTo imm).hardwired r = s.hardwired r := rfl
@[simp] theorem State.storeWord_reg (s : State) (a : Nat) (v : Word) (r : RegNum) : (s.storeWord a v).reg r = s.reg r := rfl
@[simp] theorem State.storeWord_isWritten (s : State) (a : Nat) (v : Word) (r : RegNum) : (s.storeWord a v).isWritten r = s.isWritten r := rfl
@[simp] theorem State.storeWord_hardwired (s : State) (a : Nat) (v : Word) (r : RegNum) : (s.storeWord a v).hardwired r = s.hardwired r := rfl
@[simp] theorem State.draw_reg (s : State) (r : RegNum) : s.draw.2.reg r = s.reg r := rfl
@[simp] theorem State.draw_isWritten (s : State) (r : RegNum) : s.draw.2.isWritten r = s.isWritten r := rfl
@[simp] theorem State.draw_hardwired (s : State) (r : RegNum) : s.draw.2.hardwired r = s.hardwired r := rfl
@[simp] theorem State.draw_value (s : State) : s.draw.1 = Config.drawnWord s.draws := rfl

@[simp] theorem State.writeReg_hardwired (s : State) (i : RegNum) (v : Word) (r : RegNum) :
    (s.writeReg i v).hardwired r = s.hardwired r := by
  simp [State.hardwired]

/-- What register r holds after `x[i] <- v`. -/
@[simp] theorem State.writeReg_reg (s : State) (i : RegNum) (v : Word) (r : RegNum) :
    (s.writeReg i v).reg r = if r = i ∧ s.hardwired i = false then v else s.reg r := by
  unfold State.writeReg State.reg
  cases h : s.hardwired i
  · by_cases hr : r = i
    · subst hr; simp
    · have : i.toNat ≠ r.toNat := fun e => hr (BitVec.eq_of_toNat_eq e.symm)
      simp [hr, this]
  · simp

/-- Which registers count as written after `x[i] <- v`. -/
@[simp] theorem State.writeReg_isWritten (s : State) (i : RegNum) (v : Word) (r : RegNum) :
    (s.writeReg i v).isWritten r =
      if r = i ∧ s.hardwired i = false then true else s.isWritten r := by
  unfold State.writeReg State.isWritten
  cases h : s.hardwired i
  · by_cases hr : r = i
    · subst hr; simp
    · have : i.toNat ≠ r.toNat := fun e => hr (BitVec.eq_of_toNat_eq e.symm)
      simp [hr, this]
  · simp

@[simp] theorem State.writeReg_outcome_eq_of_hardwired (s : State) (i : RegNum) (v : Word)
    (h : s.hardwired i = true) : s.writeReg i v = s := by
  simp [State.writeReg, h]

/-! ### The host's loads -/

@[simp] theorem State.loadProgram_cfg (s : State) (ws : List InstrWord) : (s.loadProgram ws).cfg = s.cfg := rfl
@[simp] theorem State.loadProgram_dmem (s : State) (ws : List InstrWord) : (s.loadProgram ws).dmem = s.dmem := rfl
@[simp] theorem State.loadProgram_pc (s : State) (ws : List InstrWord) : (s.loadProgram ws).pc = s.pc := rfl
@[simp] theorem State.loadProgram_imem (s : State) (ws : List InstrWord) : (s.loadProgram ws).imem = programBytes 0 ws := rfl
@[simp] theorem State.loadProgram_imemWords (s : State) (ws : List InstrWord) : (s.loadProgram ws).imemWords = ws.length := rfl
@[simp] theorem State.placeInstr_pc (s : State) (k : Nat) (w : InstrWord) : (s.placeInstr k w).pc = s.pc := rfl
@[simp] theorem State.placeInstr_cfg (s : State) (k : Nat) (w : InstrWord) : (s.placeInstr k w).cfg = s.cfg := rfl

end Sys2Proof.Machine
end

