-- ==== Sys2Proof/Laws/Registers.lean ====
section
/-! SUPPORT. What a register read can answer, said once: a held value with the state unchanged, or a draw; and the same for the operand forms. -/

namespace Sys2Proof.Machine

/-- A register that holds a value is read without changing the state. -/
theorem State.readReg_of_holds {s : State} {i : RegNum} (h : s.holds i = true) :
    s.readReg i = (s.value i, s) := by
  unfold State.readReg State.value
  unfold State.holds at h
  cases hh : s.hardwired i
  · cases hw : s.isWritten i
    · simp only [hh, hw, Bool.false_or, beq_iff_eq] at h
      simp [h]
    · simp
  · simp

/-- A register that holds no value is drawn. -/
theorem State.readReg_of_not_holds {s : State} {i : RegNum} (h : s.holds i = false) :
    s.readReg i = s.draw := by
  unfold State.readReg
  simp only [State.holds, Bool.or_eq_false_iff, beq_eq_false_iff_ne] at h
  obtain ⟨⟨hh, hw⟩, hc⟩ := h
  cases hu : s.cfg.unwrittenReg <;> simp_all

/-- What a read answers: the value held with the state unchanged, or a draw. -/
theorem State.readReg_cases {s s1 : State} {i : RegNum} {v : Word}
    (h : s.readReg i = (v, s1)) :
    (s.holds i = true ∧ v = s.value i ∧ s1 = s) ∨
    (s.holds i = false ∧ v = Config.drawnWord s.draws ∧
      s1 = { s with draws := s.draws + 1 }) := by
  cases hh : s.holds i
  · rw [State.readReg_of_not_holds hh] at h
    cases h; exact .inr ⟨rfl, rfl, rfl⟩
  · rw [State.readReg_of_holds hh] at h
    cases h; exact .inl ⟨rfl, rfl, rfl⟩

/-- A state that differs from s in the draw counter at most. -/
def State.SameButDraws (s s1 : State) : Prop := s1 = { s with draws := s1.draws }

theorem State.SameButDraws.cfg {s s1 : State} (h : s.SameButDraws s1) : s1.cfg = s.cfg := by rw [h]
theorem State.SameButDraws.regs {s s1 : State} (h : s.SameButDraws s1) : s1.regs = s.regs := by rw [h]
theorem State.SameButDraws.written {s s1 : State} (h : s.SameButDraws s1) : s1.written = s.written := by rw [h]
theorem State.SameButDraws.pc {s s1 : State} (h : s.SameButDraws s1) : s1.pc = s.pc := by rw [h]
theorem State.SameButDraws.dmem {s s1 : State} (h : s.SameButDraws s1) : s1.dmem = s.dmem := by rw [h]
theorem State.SameButDraws.imem {s s1 : State} (h : s.SameButDraws s1) : s1.imem = s.imem := by rw [h]
theorem State.SameButDraws.imemWords {s s1 : State} (h : s.SameButDraws s1) : s1.imemWords = s.imemWords := by rw [h]
theorem State.SameButDraws.reg {s s1 : State} (h : s.SameButDraws s1) (r : RegNum) : s1.reg r = s.reg r := by
  simp only [State.reg, h.regs]
theorem State.SameButDraws.isWritten {s s1 : State} (h : s.SameButDraws s1) (r : RegNum) :
    s1.isWritten r = s.isWritten r := by
  simp only [State.isWritten, h.written]
theorem State.SameButDraws.hardwired {s s1 : State} (h : s.SameButDraws s1) (r : RegNum) :
    s1.hardwired r = s.hardwired r := by
  simp only [State.hardwired, h.cfg]

theorem State.sameButDraws_of_readReg {s s1 : State} {i : RegNum} {v : Word}
    (h : s.readReg i = (v, s1)) : s.SameButDraws s1 := by
  rcases State.readReg_cases h with ⟨-, -, rfl⟩ | ⟨-, -, rfl⟩ <;> rfl

theorem State.SameButDraws.trans {s s1 s2 : State} (h : s.SameButDraws s1)
    (h' : s1.SameButDraws s2) : s.SameButDraws s2 := by
  unfold State.SameButDraws at *
  rw [h', h]

/-- A pair read, taken apart: rA first, then rB. -/
theorem State.readPair_eq {s s2 : State} {rA rB : RegNum} {a b : Word}
    (h : s.readPair rA rB = (a, b, s2)) :
    ∃ s1, s.readReg rA = (a, s1) ∧ s1.readReg rB = (b, s2) := by
  refine ⟨(s.readReg rA).2, ?_, ?_⟩ <;> simp_all [State.readPair, Prod.ext_iff]

theorem State.sameButDraws_of_readPair {s s2 : State} {rA rB : RegNum} {a b : Word}
    (h : s.readPair rA rB = (a, b, s2)) : s.SameButDraws s2 := by
  obtain ⟨s1, h1, h2⟩ := State.readPair_eq h
  exact (State.sameButDraws_of_readReg h1).trans (State.sameButDraws_of_readReg h2)

/-- Two registers that hold values are read without changing the state. -/
theorem State.readPair_of_holds {s : State} {rA rB : RegNum} (ha : s.holds rA = true)
    (hb : s.holds rB = true) : s.readPair rA rB = (s.value rA, s.value rB, s) := by
  simp [State.readPair, State.readReg_of_holds ha, State.readReg_of_holds hb]

/-- Reading a hardwired register gives zero (rule R12). -/
theorem State.readReg_hardwired {s : State} {i : RegNum} (h : s.hardwired i = true) :
    s.readReg i = (0#64, s) := by
  simp [State.readReg, h]

/-- A register that has just been written reads as the value written. -/
theorem State.readReg_writeReg_same {s : State} {i : RegNum} {v : Word}
    (h : s.hardwired i = false) : (s.writeReg i v).readReg i = (v, s.writeReg i v) := by
  simp [State.readReg, h]

/-! ### What the shared operand forms answer -/

/-- Giving a register a value and advancing, after reads that changed the draw counter at most. -/
theorem State.givesRegister {s s1 : State} (h : s.SameButDraws s1) (rD : RegNum) (v : Word) :
    GivesRegister s (s1.writeReg rD v).advance rD v s1.draws := by
  refine ⟨fun r => ?_, fun r => ?_, ?_, fun x => ?_, fun x => ?_, ?_, ?_, ?_⟩
  · rw [State.advance_reg, State.writeReg_reg, h.reg, h.hardwired]
  · rw [State.advance_isWritten, State.writeReg_isWritten, h.isWritten, h.hardwired]
  · rw [State.advance_pc, State.writeReg_pc, State.writeReg_cfg, h.pc, h.cfg]
  · rw [State.advance_dmem, State.writeReg_dmem, h.dmem]
  · rw [State.advance_imem, State.writeReg_imem, h.imem]
  · rw [State.advance_imemWords, State.writeReg_imemWords, h.imemWords]
  · rw [State.advance_cfg, State.writeReg_cfg, h.cfg]
  · rw [State.advance_draws, State.writeReg_draws]

/-- A one-source instruction after its read. -/
theorem oneSourceOp_ok {f : Word → Word} {rD rA : RegNum} {s s1 : State} {a : Word}
    (h : s.readReg rA = (a, s1)) :
    oneSourceOp f rD rA s = .next (s1.writeReg rD (f a)).advance ∧
    GivesRegister s (s1.writeReg rD (f a)).advance rD (f a) s1.draws := by
  refine ⟨by simp [oneSourceOp, h], State.givesRegister (State.sameButDraws_of_readReg h) rD _⟩

/-- A two-source instruction after its reads. -/
theorem twoSourceOp_ok {f : Word → Word → Word} {rD rA rB : RegNum} {s s1 : State} {a b : Word}
    (h : s.readPair rA rB = (a, b, s1)) :
    twoSourceOp f rD rA rB s = .next (s1.writeReg rD (f a b)).advance ∧
    GivesRegister s (s1.writeReg rD (f a b)).advance rD (f a b) s1.draws := by
  refine ⟨by simp [twoSourceOp, h], State.givesRegister (State.sameButDraws_of_readPair h) rD _⟩

/-- Setting the pc after reads that changed the draw counter at most. -/
theorem State.givesPc {s s1 : State} (h : s.SameButDraws s1) (p : Pc) :
    GivesPc s { s1 with pc := p } p s1.draws :=
  ⟨h.reg, h.isWritten, rfl, fun x => by rw [← h.dmem], fun x => by rw [← h.imem], h.imemWords,
    h.cfg, rfl⟩

/-- A branch, after its read, goes to its target or to the next instruction. -/
theorem branchOp_ok {cond : Word → Bool} {rD : RegNum} {imm : Imm16} {s s1 : State} {v : Word}
    (h : s.readReg rD = (v, s1)) :
    ∃ t, branchOp cond rD imm s = .next t ∧
      GivesPc s t (if cond v then branchTarget imm else s.pc.next s.cfg.pcStep) s1.draws := by
  have hs := State.sameButDraws_of_readReg h
  refine ⟨if cond v then s1.branchTo imm else s1.advance, by simp [branchOp, h], ?_⟩
  split
  · exact State.givesPc hs _
  · rw [← hs.pc, ← hs.cfg]; exact State.givesPc hs _

/-- Everything a one-source instruction answers. -/
theorem oneSourceOp_next {f : Word → Word} {rD rA : RegNum} {s t : State}
    (h : oneSourceOp f rD rA s = .next t) :
    ∃ a s1, s.readReg rA = (a, s1) ∧ t = (s1.writeReg rD (f a)).advance := by
  cases h; exact ⟨_, _, rfl, rfl⟩

/-- Everything a two-source instruction answers. -/
theorem twoSourceOp_next {f : Word → Word → Word} {rD rA rB : RegNum} {s t : State}
    (h : twoSourceOp f rD rA rB s = .next t) :
    ∃ a b s1, s.readPair rA rB = (a, b, s1) ∧ t = (s1.writeReg rD (f a b)).advance := by
  cases h; exact ⟨_, _, _, rfl, rfl⟩

/-- Everything a branch answers. -/
theorem branchOp_next {cond : Word → Bool} {rD : RegNum} {imm : Imm16} {s t : State}
    (h : branchOp cond rD imm s = .next t) :
    ∃ v s1, s.readReg rD = (v, s1) ∧
      t = if cond v then s1.branchTo imm else s1.advance := by
  cases h; exact ⟨_, _, rfl, rfl⟩

end Sys2Proof.Machine
end

