-- ==== Sys2Proof/Laws/Exec.lean ====
section
/-! SUPPORT. Everything a next state of an instruction can be, said once: frames, invariants and the whole-machine rules follow from exec_cases without unfolding a meaning. -/

namespace Sys2Proof.Machine

/-! ### The operand form of each instruction, so that no proof unfolds exec or a meaning -/

section Forms
variable (ww : Width) (rD rA rB : RegNum) (imm : Imm16) (s : State)

theorem exec_vand : exec (.vand ww rD rA rB) s =
    twoSourceOp (fun a b => a &&& b) rD rA rB s := rfl
theorem exec_vor : exec (.vor ww rD rA rB) s =
    twoSourceOp (fun a b => a ||| b) rD rA rB s := rfl
theorem exec_vxor : exec (.vxor ww rD rA rB) s =
    twoSourceOp (fun a b => a ^^^ b) rD rA rB s := rfl
theorem exec_vnot : exec (.vnot ww rD rA) s =
    oneSourceOp (fun a => ~~~a) rD rA s := rfl
theorem exec_vmov : exec (.vmov ww rD rA) s =
    oneSourceOp (fun a => a) rD rA s := rfl
theorem exec_vadd : exec (.vadd ww rD rA rB) s =
    twoSourceOp (zipLanes ww (addLane ww.size)) rD rA rB s := rfl
theorem exec_vsub : exec (.vsub ww rD rA rB) s =
    twoSourceOp (zipLanes ww (subLane ww.size)) rD rA rB s := rfl
theorem exec_vmuleu (h : ww.hasDouble = true) : exec (.vmuleu ww rD rA rB) s =
    twoSourceOp (zipEven ww (fun u v => u * v)) rD rA rB s := by simp [exec, execVmuleu, h]
theorem exec_vmulou (h : ww.hasDouble = true) : exec (.vmulou ww rD rA rB) s =
    twoSourceOp (zipOdd ww (fun u v => u * v)) rD rA rB s := by simp [exec, execVmulou, h]
theorem exec_vsll : exec (.vsll ww rD rA rB) s =
    twoSourceOp (zipLanes ww (sllLane ww.size)) rD rA rB s := rfl
theorem exec_vsrl : exec (.vsrl ww rD rA rB) s =
    twoSourceOp (zipLanes ww (srlLane ww.size)) rD rA rB s := rfl
theorem exec_vsra : exec (.vsra ww rD rA rB) s =
    twoSourceOp (zipLanes ww (sraLane ww.size)) rD rA rB s := rfl
theorem exec_vrtth : exec (.vrtth ww rD rA) s =
    oneSourceOp (mapLanes ww (swapHalves ww.size)) rD rA s := rfl
theorem exec_vdivu : exec (.vdivu ww rD rA rB) s =
    twoSourceOp (zipLanes ww (divLane ww.size)) rD rA rB s := rfl
theorem exec_vmodu : exec (.vmodu ww rD rA rB) s =
    twoSourceOp (zipLanes ww (modLane ww.size)) rD rA rB s := rfl
theorem exec_vsqeu (h : ww.hasDouble = true) : exec (.vsqeu ww rD rA) s =
    oneSourceOp (fun a => zipEven ww (fun u v => u * v) a a) rD rA s := by
  simp [exec, execVsqeu, h]
theorem exec_vsqou (h : ww.hasDouble = true) : exec (.vsqou ww rD rA) s =
    oneSourceOp (fun a => zipOdd ww (fun u v => u * v) a a) rD rA s := by
  simp [exec, execVsqou, h]
theorem exec_vsqrtu : exec (.vsqrtu ww rD rA) s =
    oneSourceOp (mapLanes ww isqrt) rD rA s := rfl
theorem exec_vbeq : exec (.vbeq rD imm) s = branchOp (fun v => v == 0#64) rD imm s := rfl
theorem exec_vbneq : exec (.vbneq rD imm) s = branchOp (fun v => v != 0#64) rD imm s := rfl
theorem exec_vnop : exec .vnop s = .next s.advance := rfl

end Forms

/-- An instruction term without an encoding faults with its own word (rule R50, log 17). -/
theorem exec_of_not_wellFormed {i : Instr} (h : i.wellFormed = false) (s : State) :
    exec i s = raise (.illegalInstruction (encode i)) := by
  cases i with
  | vmuleu ww => cases ww <;> first | (cases h; done) | rfl
  | vmulou ww => cases ww <;> first | (cases h; done) | rfl
  | vsqeu ww => cases ww <;> first | (cases h; done) | rfl
  | vsqou ww => cases ww <;> first | (cases h; done) | rfl
  | _ => cases h

/-- What an instruction with a next state has done, after reads that changed the draw counter at
most: given its destination a value and advanced, stored a word and advanced, taken its branch,
or advanced only. -/
inductive Effect (i : Instr) (s : State) : State → Prop where
  | register (rD : RegNum) (v : Word) (s1 : State) (h : s.SameButDraws s1)
      (hd : i.dest = some rD) (ht : i.target = none) (hs : i.storeAddress = none) :
      Effect i s (s1.writeReg rD v).advance
  | store (imm : Imm16) (v : Word) (s1 : State) (h : s.SameButDraws s1)
      (hd : i.dest = none) (ht : i.target = none) (hs : i.storeAddress = some imm)
      (hin : (effectiveAddress imm).toNat < s.cfg.dmemWords) :
      Effect i s (s1.storeWord (effectiveAddress imm).toNat v).advance
  | jump (imm : Imm16) (s1 : State) (h : s.SameButDraws s1)
      (hd : i.dest = none) (ht : i.target = some imm) (hs : i.storeAddress = none) :
      Effect i s (s1.branchTo imm)
  | advance (s1 : State) (h : s.SameButDraws s1)
      (hd : i.dest = none) (hs : i.storeAddress = none) :
      Effect i s s1.advance

theorem oneSourceOp_effect {i : Instr} {f : Word → Word} {rD rA : RegNum} {s t : State}
    (h : oneSourceOp f rD rA s = .next t) (hd : i.dest = some rD) (ht : i.target = none)
    (hs : i.storeAddress = none) : Effect i s t := by
  obtain ⟨a, s1, hr, rfl⟩ := oneSourceOp_next h
  exact .register rD _ s1 (State.sameButDraws_of_readReg hr) hd ht hs

theorem twoSourceOp_effect {i : Instr} {f : Word → Word → Word} {rD rA rB : RegNum} {s t : State}
    (h : twoSourceOp f rD rA rB s = .next t) (hd : i.dest = some rD) (ht : i.target = none)
    (hs : i.storeAddress = none) : Effect i s t := by
  obtain ⟨a, b, s1, hr, rfl⟩ := twoSourceOp_next h
  exact .register rD _ s1 (State.sameButDraws_of_readPair hr) hd ht hs

theorem branchOp_effect {i : Instr} {cond : Word → Bool} {rD : RegNum} {imm : Imm16} {s t : State}
    (h : branchOp cond rD imm s = .next t) (hd : i.dest = none) (ht : i.target = some imm)
    (hs : i.storeAddress = none) : Effect i s t := by
  obtain ⟨v, s1, hr, rfl⟩ := branchOp_next h
  have hsame := State.sameButDraws_of_readReg hr
  split
  · exact .jump imm s1 hsame hd ht hs
  · exact .advance s1 hsame hd hs

/-- What a load of an implemented word changes: the draw counter at most. -/
theorem State.sameButDraws_of_loadData {s s1 : State} {ea : BitVec 32} {v : Word}
    (h : s.loadData ea = .ok (v, s1)) : s.SameButDraws s1 := by
  unfold State.loadData at h
  split at h
  · cases h; rfl
  · split at h
    · cases h; rfl
    · cases h

/-- Everything a load can answer with a next state. -/
theorem execVld_next {rD : RegNum} {imm : Imm16} {s t : State} (h : execVld rD imm s = .next t) :
    ∃ v s1, s.loadData (effectiveAddress imm) = .ok (v, s1) ∧
      s.outsideData (effectiveAddress imm) = false ∧ t = (s1.writeReg rD v).advance := by
  unfold execVld at h
  cases ho : s.outsideData (effectiveAddress imm)
  · simp only [ho] at h
    split at h
    · cases h
    · cases hl : s.loadData (effectiveAddress imm) with
      | error e => simp [hl, raise] at h
      | ok p =>
        obtain ⟨v, s1⟩ := p
        simp only [hl] at h
        cases h
        exact ⟨v, s1, rfl, rfl, rfl⟩
  · simp [ho, raise] at h

/-- Everything a store can answer with a next state. -/
theorem execVsd_next {rD : RegNum} {imm : Imm16} {s t : State} (h : execVsd rD imm s = .next t) :
    ∃ v s1, s.readReg rD = (v, s1) ∧
      (effectiveAddress imm).toNat < s.cfg.dmemWords ∧
      t = (s1.storeWord (effectiveAddress imm).toNat v).advance := by
  unfold execVsd at h
  cases hr : s.readReg rD with
  | mk v s1 =>
    simp only [hr] at h
    split at h
    · cases h
    · next ho =>
      cases h
      refine ⟨v, s1, rfl, ?_, rfl⟩
      rw [← (State.sameButDraws_of_readReg hr).cfg]
      simpa [State.outsideData] using ho

/-- Every next state of every instruction is one of the four effects. -/
theorem exec_cases {i : Instr} {s t : State} (h : exec i s = .next t) : Effect i s t := by
  cases i with
  | vand => exact twoSourceOp_effect h rfl rfl rfl
  | vor => exact twoSourceOp_effect h rfl rfl rfl
  | vxor => exact twoSourceOp_effect h rfl rfl rfl
  | vnot => exact oneSourceOp_effect h rfl rfl rfl
  | vmov => exact oneSourceOp_effect (f := fun a => a) h rfl rfl rfl
  | vadd => exact twoSourceOp_effect h rfl rfl rfl
  | vsub => exact twoSourceOp_effect h rfl rfl rfl
  | vmuleu ww =>
    cases ww <;> first | exact twoSourceOp_effect (i := .vmuleu _ _ _ _) h rfl rfl rfl | cases h
  | vmulou ww =>
    cases ww <;> first | exact twoSourceOp_effect (i := .vmulou _ _ _ _) h rfl rfl rfl | cases h
  | vsll => exact twoSourceOp_effect h rfl rfl rfl
  | vsrl => exact twoSourceOp_effect h rfl rfl rfl
  | vsra => exact twoSourceOp_effect h rfl rfl rfl
  | vrtth => exact oneSourceOp_effect h rfl rfl rfl
  | vdivu => exact twoSourceOp_effect h rfl rfl rfl
  | vmodu => exact twoSourceOp_effect h rfl rfl rfl
  | vsqeu ww =>
    cases ww <;> first | exact oneSourceOp_effect (i := .vsqeu _ _ _) h rfl rfl rfl | cases h
  | vsqou ww =>
    cases ww <;> first | exact oneSourceOp_effect (i := .vsqou _ _ _) h rfl rfl rfl | cases h
  | vsqrtu => exact oneSourceOp_effect h rfl rfl rfl
  | vld rD imm =>
    obtain ⟨v, s1, hl, -, rfl⟩ := execVld_next h
    exact .register rD v s1 (State.sameButDraws_of_loadData hl) rfl rfl rfl
  | vsd rD imm =>
    obtain ⟨v, s1, hr, hin, rfl⟩ := execVsd_next h
    exact .store imm v s1 (State.sameButDraws_of_readReg hr) rfl rfl rfl hin
  | vbeq => exact branchOp_effect (cond := fun v => v == 0#64) h rfl rfl rfl
  | vbneq => exact branchOp_effect (cond := fun v => v != 0#64) h rfl rfl rfl
  | vnop => cases h; exact .advance s rfl rfl rfl

/-- A step with a next state is the execution of a fetched, decoded instruction. -/
theorem step_cases {s t : State} (h : step s = .next t) :
    ∃ w i, s.fetch = .word w ∧ decode w = .ok i ∧ exec i s = .next t := by
  unfold step at h
  split at h
  · next w hw =>
    unfold runWord at h
    cases hd : decode w with
    | error e => simp [hd, raise] at h
    | ok i => exact ⟨w, i, hw, hd, by simpa [hd] using h⟩
  · cases h
  · cases h

/-- A run of k + 1 steps is one step and a run of k. -/
theorem run_succ_next (M : Host.Core) (k : Nat) (s t : M.State) (h : M.run (k + 1) s = .next t) :
    ∃ u, M.step s = .next u ∧ M.run k u = .next t := by
  unfold Host.Core.run at h
  split at h
  · next u hu => exact ⟨u, hu, h⟩
  · cases h
  · cases h

/-- A fetched word stands at a multiple of PC_STEP within the image. -/
theorem State.fetch_word {s : State} {w : InstrWord} (h : s.fetch = .word w) :
    s.pc.toNat ≠ s.endPc ∧ s.pc.toNat < 2 ^ 32 ∧ s.pc.toNat % s.cfg.pcStep.toNat = 0 ∧
      s.pc.toNat / s.cfg.pcStep.toNat < s.imemWords ∧
      s.instrWord (s.pc.toNat / s.cfg.pcStep.toNat) = some w := by
  unfold State.fetch at h
  simp only at h
  split at h
  · cases h
  · next he =>
    split at h
    · next hc =>
      split at h
      · next w' hw => cases h; exact ⟨he, hc.1, hc.2.1, hc.2.2, hw⟩
      · cases h
    · cases h

end Sys2Proof.Machine
end

