-- ==== Sys2Proof/Laws/Lanes.lean ====
section
/-! SUPPORT. The lanes of a packed value are the values packed, and what each lane operation computes. -/

namespace Sys2Proof

theorem Width.size_cases (ww : Width) : ww.size = 8 ∨ ww.size = 16 ∨ ww.size = 32 ∨ ww.size = 64 := by
  cases ww <;> simp [Width.size]

theorem Width.size_pos (ww : Width) : 0 < ww.size := by cases ww <;> simp [Width.size]

theorem Width.lanes_mul_size (ww : Width) : ww.lanes * ww.size = 64 := by cases ww <;> rfl

/-- The double-width lanes fill the register too. -/
theorem Width.pairs_mul_size {ww : Width} (h : ww.hasDouble = true) :
    64 / (2 * ww.size) * (2 * ww.size) = 64 := by cases ww <;> first | rfl | cases h

end Sys2Proof

namespace Sys2Proof.Machine

theorem lane_lt (v : Word) (size k : Nat) : lane v size k < 2 ^ size :=
  Nat.mod_lt _ (Nat.two_pow_pos size)

theorem packNat_lt (size : Nat) (f : Nat → Nat) (n : Nat) : packNat size f n < 2 ^ (n * size) := by
  induction n with
  | zero => simp [packNat]
  | succ n ih =>
    have hf : f n % 2 ^ size < 2 ^ size := Nat.mod_lt _ (Nat.two_pow_pos size)
    rw [packNat, Nat.succ_mul, pow_add]
    calc packNat size f n * 2 ^ size + f n % 2 ^ size
        < packNat size f n * 2 ^ size + 2 ^ size := by omega
      _ = (packNat size f n + 1) * 2 ^ size := by ring
      _ ≤ 2 ^ (n * size) * 2 ^ size := Nat.mul_le_mul_right _ ih

/-- Lane k of n packed lanes is f k, narrowed. -/
theorem packNat_lane (size : Nat) (f : Nat → Nat) (n k : Nat) (h : k < n) :
    packNat size f n / 2 ^ ((n - 1 - k) * size) % 2 ^ size = f k % 2 ^ size := by
  induction n with
  | zero => omega
  | succ n ih =>
    by_cases hk : k = n
    · subst hk
      simp [packNat]
    · have hp : 0 < 2 ^ size := Nat.two_pow_pos size
      have hf : f n % 2 ^ size < 2 ^ size := Nat.mod_lt _ hp
      rw [show n + 1 - 1 - k = (n - 1 - k) + 1 by omega, Nat.succ_mul, pow_add, mul_comm,
        ← Nat.div_div_eq_div_mul, packNat]
      rw [show (packNat size f n * 2 ^ size + f n % 2 ^ size) / 2 ^ size = packNat size f n by
        rw [mul_comm, Nat.mul_add_div hp, Nat.div_eq_of_lt hf, Nat.add_zero]]
      exact ih (by omega)

/-- Lane k of a packed value is the k-th value, narrowed to the lane, whenever the lanes fill the
register. -/
theorem lane_pack (size : Nat) (f : Nat → Nat) (hfill : 64 / size * size = 64) (k : Nat)
    (h : k < 64 / size) : lane (pack size f) size k = f k % 2 ^ size := by
  have hlt : packNat size f (64 / size) < 2 ^ 64 := by
    have := packNat_lt size f (64 / size); rwa [hfill] at this
  rw [lane, pack, BitVec.toNat_ofNat, Nat.mod_eq_of_lt hlt, Nat.shiftRight_eq_div_pow,
    show 64 - (k + 1) * size = (64 / size - 1 - k) * size by
      rw [Nat.sub_sub, Nat.sub_mul, hfill, Nat.add_comm 1 k]]
  exact packNat_lane size f _ k h

theorem lane_mapLanes (ww : Width) (f : Nat → Nat) (a : Word) (k : Nat) (h : k < ww.lanes) :
    lane (mapLanes ww f a) ww.size k = f (lane a ww.size k) % 2 ^ ww.size :=
  lane_pack ww.size _ (Width.lanes_mul_size ww) k h

theorem lane_zipLanes (ww : Width) (f : Nat → Nat → Nat) (a b : Word) (k : Nat) (h : k < ww.lanes) :
    lane (zipLanes ww f a b) ww.size k = f (lane a ww.size k) (lane b ww.size k) % 2 ^ ww.size :=
  lane_pack ww.size _ (Width.lanes_mul_size ww) k h

theorem lane_zipEven (ww : Width) (hw : ww.hasDouble = true) (f : Nat → Nat → Nat) (a b : Word)
    (j : Nat) (h : j < 64 / (2 * ww.size)) :
    lane (zipEven ww f a b) (2 * ww.size) j =
      f (lane a ww.size (2 * j)) (lane b ww.size (2 * j)) % 2 ^ (2 * ww.size) :=
  lane_pack _ _ (Width.pairs_mul_size hw) j h

theorem lane_zipOdd (ww : Width) (hw : ww.hasDouble = true) (f : Nat → Nat → Nat) (a b : Word)
    (j : Nat) (h : j < 64 / (2 * ww.size)) :
    lane (zipOdd ww f a b) (2 * ww.size) j =
      f (lane a ww.size (2 * j + 1)) (lane b ww.size (2 * j + 1)) % 2 ^ (2 * ww.size) :=
  lane_pack _ _ (Width.pairs_mul_size hw) j h

/-- The exact product of two lanes fits the double-width lane (rule R68). -/
theorem lane_mul_fits (a b : Word) (size i j : Nat) :
    lane a size i * lane b size j < 2 ^ (2 * size) := by
  rw [two_mul, pow_add]
  exact Nat.mul_lt_mul'' (lane_lt _ _ _) (lane_lt _ _ _)

/-- Two registers with the same lanes are equal. -/
theorem eq_of_lanes {v v' : Word} (ww : Width)
    (h : ∀ k, k < ww.lanes → lane v ww.size k = lane v' ww.size k) : v = v' := by
  apply BitVec.eq_of_toNat_eq
  have h1 := v.isLt
  have h2 := v'.isLt
  cases ww
  · have e0 := h 0 (by decide)
    have e1 := h 1 (by decide)
    have e2 := h 2 (by decide)
    have e3 := h 3 (by decide)
    have e4 := h 4 (by decide)
    have e5 := h 5 (by decide)
    have e6 := h 6 (by decide)
    have e7 := h 7 (by decide)
    simp only [lane, Width.size, Nat.shiftRight_eq_div_pow] at e0 e1 e2 e3 e4 e5 e6 e7
    omega
  · have e0 := h 0 (by decide)
    have e1 := h 1 (by decide)
    have e2 := h 2 (by decide)
    have e3 := h 3 (by decide)
    simp only [lane, Width.size, Nat.shiftRight_eq_div_pow] at e0 e1 e2 e3
    omega
  · have e0 := h 0 (by decide)
    have e1 := h 1 (by decide)
    simp only [lane, Width.size, Nat.shiftRight_eq_div_pow] at e0 e1
    omega
  · have e0 := h 0 (by decide)
    simp only [lane, Width.size, Nat.shiftRight_eq_div_pow] at e0
    omega

/-- The manual's u + ~v + 1 is the difference modulo 2^size (rule R67). -/
theorem subLane_eq (size u v : Nat) (hv : v < 2 ^ size) :
    (subLane size u v : Int) = ((u : Int) - v) % 2 ^ size := by
  have e : u + (2 ^ size - 1 - v) + 1 = u + 2 ^ size - v := by omega
  rw [subLane, dropCarry, e]
  push_cast [show v ≤ u + 2 ^ size by omega]
  rw [show (u : Int) + 2 ^ size - v = ((u : Int) - v) + 2 ^ size by ring, Int.add_emod_right]

/-- What the search for a root keeps: r squared is at most v, and the bits still to come, all set,
would pass it. -/
theorem isqrtFrom_spec (v i r : Nat) (h1 : r * r ≤ v) (h2 : v < (r + 2 ^ i) * (r + 2 ^ i)) :
    isqrtFrom v i r * isqrtFrom v i r ≤ v ∧
      v < (isqrtFrom v i r + 1) * (isqrtFrom v i r + 1) := by
  induction i generalizing r with
  | zero => simpa [isqrtFrom] using ⟨h1, h2⟩
  | succ i ih =>
    rw [isqrtFrom]
    split
    · next hc =>
      refine ih _ hc ?_
      rwa [show r + 2 ^ i + 2 ^ i = r + 2 ^ (i + 1) by rw [pow_succ]; ring]
    · next hc => exact ih _ h1 (by omega)

/-- isqrt v is the floor root of v (rule R80). -/
theorem isqrt_spec (v : Nat) (h : v < 2 ^ 64) :
    isqrt v * isqrt v ≤ v ∧ v < (isqrt v + 1) * (isqrt v + 1) :=
  isqrtFrom_spec v 32 0 (by omega) (by simpa using h)

end Sys2Proof.Machine
end

