-- ==== Sys2Proof/Laws/Load.lean ====
section
/-! SUPPORT. What the host's loads leave: where an image's bytes stand, that both memories stay canonical, and that a placed word is the one read back. -/

namespace Sys2Proof.Machine

/-! ### The instruction image (rule R124) -/

/-- An image's cells stand at or above its first word. -/
theorem programBytes_mem {ws : List InstrWord} {k : Nat} {c : Host.Cell}
    (h : c ∈ programBytes k ws) : 4 * k ≤ c.1 := by
  induction ws generalizing k with
  | nil => cases h
  | cons w ws ih =>
    simp only [programBytes, List.mem_cons] at h
    rcases h with rfl | rfl | rfl | rfl | h
    · simp
    · simp
    · simp
    · simp
    · have := ih h; omega

/-- An image is in canonical form. -/
theorem programBytes_wf (ws : List InstrWord) (k : Nat) : Memory.wf (programBytes k ws) := by
  induction ws generalizing k with
  | nil => simp [Memory.wf, programBytes]
  | cons w ws ih =>
    have ih' := ih (k + 1)
    have hm : ∀ c ∈ programBytes (k + 1) ws, 4 * k + 4 ≤ c.1 := fun c hc => by
      have := programBytes_mem hc; omega
    simp only [Memory.wf, programBytes, List.pairwise_cons, List.mem_cons] at ih' ⊢
    refine ⟨?_, ?_, ?_, ?_, ih'⟩
    · rintro c (rfl | rfl | rfl | h)
      · show 4 * k < 4 * k + 1; omega
      · show 4 * k < 4 * k + 2; omega
      · show 4 * k < 4 * k + 3; omega
      · have := hm c h; show 4 * k < c.1; omega
    · rintro c (rfl | rfl | h)
      · show 4 * k + 1 < 4 * k + 2; omega
      · show 4 * k + 1 < 4 * k + 3; omega
      · have := hm c h; show 4 * k + 1 < c.1; omega
    · rintro c (rfl | h)
      · show 4 * k + 2 < 4 * k + 3; omega
      · have := hm c h; show 4 * k + 2 < c.1; omega
    · rintro c h
      have := hm c h; show 4 * k + 3 < c.1; omega

/-- Byte j of word m of an image that starts at word k, the most significant being byte 0. -/
theorem readByte_programBytes (ws : List InstrWord) (k m j : Nat) (hj : j < 4) :
    Memory.readByte (programBytes k ws) (4 * (k + m) + j) =
      ws[m]?.map (fun w => w.extractLsb' (24 - 8 * j) 8) := by
  induction ws generalizing k m with
  | nil => rfl
  | cons w ws ih =>
    simp only [programBytes, Memory.readByte]
    cases m with
    | zero =>
      have : j = 0 ∨ j = 1 ∨ j = 2 ∨ j = 3 := by omega
      rcases this with rfl | rfl | rfl | rfl <;> simp
    | succ m =>
      rw [if_neg (by omega), if_neg (by omega), if_neg (by omega), if_neg (by omega),
        show 4 * (k + (m + 1)) + j = 4 * ((k + 1) + m) + j by omega, ih]
      simp

/-- Exactly the bytes of the image's words have a value. -/
theorem readByte_programBytes_isSome (ws : List InstrWord) (x : Nat) :
    (Memory.readByte (programBytes 0 ws) x).isSome = decide (x < 4 * ws.length) := by
  have h := readByte_programBytes ws 0 (x / 4) (x % 4) (by omega)
  rw [show 4 * (0 + x / 4) + x % 4 = x by omega] at h
  rw [h, Option.isSome_map, Bool.eq_iff_iff]
  simp
  omega

/-- A word is its four bytes. -/
theorem ofNat_wordBytes (w : InstrWord) :
    BitVec.ofNat 32 ((((0 * 256 + (w.extractLsb' 24 8).toNat) * 256 + (w.extractLsb' 16 8).toNat) * 256
      + (w.extractLsb' 8 8).toNat) * 256 + (w.extractLsb' 0 8).toNat) = w := by
  apply BitVec.eq_of_toNat_eq
  simp [BitVec.extractLsb', Nat.shiftRight_eq_div_pow]
  have := w.isLt
  omega

/-- Word k of a placed image is its k-th word. -/
theorem State.instrWord_loadProgram (s : State) (ws : List InstrWord) (k : Nat) :
    (s.loadProgram ws).instrWord k = ws[k]? := by
  have h0 := readByte_programBytes ws 0 k 0 (by omega)
  have h1 := readByte_programBytes ws 0 k 1 (by omega)
  have h2 := readByte_programBytes ws 0 k 2 (by omega)
  have h3 := readByte_programBytes ws 0 k 3 (by omega)
  simp only [Nat.zero_add] at h0 h1 h2 h3
  simp only [State.instrWord, State.loadProgram_imem, Memory.readBE, h0, h1, h2, h3]
  cases ws[k]? with
  | none => rfl
  | some w => simpa using ofNat_wordBytes w

/-! ### The data image (rule R125) -/

/-- A store keeps the data memory canonical. -/
theorem State.wf_storeWord {s : State} (h : s.dmem.wf) (a : Nat) (v : Word) :
    (s.storeWord a v).dmem.wf :=
  Memory.wf_writeBE h _ _ _

/-- Placing the data image changes the data memory alone and keeps it canonical. -/
theorem State.loadDataImage_spec (s : State) (ds : List (Nat × Word)) :
    (∃ m, s.loadDataImage ds = { s with dmem := m }) ∧
      (s.dmem.wf → (s.loadDataImage ds).dmem.wf) := by
  induction ds generalizing s with
  | nil => exact ⟨⟨s.dmem, rfl⟩, id⟩
  | cons d ds ih =>
    obtain ⟨a, v⟩ := d
    simp only [State.loadDataImage]
    split
    · obtain ⟨⟨m, hm⟩, hw⟩ := ih (s.storeWord a v)
      exact ⟨⟨m, by rw [hm]; rfl⟩, fun h => hw (State.wf_storeWord h a v)⟩
    · exact ih s

/-! ### Placing one instruction (log 22) -/

/-- The placed word is read back, and the instruction memory stays canonical. -/
theorem State.placeInstr_spec (s : State) (k : Nat) (w : InstrWord) :
    (s.placeInstr k w).instrWord k = some w ∧
      (s.imem.wf → (s.placeInstr k w).imem.wf) := by
  refine ⟨?_, fun h => Memory.wf_writeBE h _ _ _⟩
  simp only [State.instrWord, State.placeInstr, Memory.readBE_writeBE, Option.map_some,
    Option.some.injEq]
  apply BitVec.eq_of_toNat_eq
  have := w.isLt
  simp only [BitVec.toNat_ofNat]
  omega

/-- The memories after reset are canonical. -/
theorem State.wf_reset : State.reset.dmem.wf ∧ State.reset.imem.wf := by
  simp [State.reset, Memory.wf]

end Sys2Proof.Machine
end

