-- ==== Sys2Proof/Laws/PerInstr.lean ====
section
/-! SUPPORT. One family of statements made per instruction, over the instruction as written: MatchesRow says that the encoder's word has the fixed bits, and meets the constraint, of the instruction's row in the match and mask table of 30_encoding.md rule R46. -/

namespace Sys2Proof.Laws.MatchesRow

/-- The word of a well-formed instruction matches the row of its mnemonic. -/
def Statement (i : Instr) : Prop :=
  i.wellFormed = true → ∃ r ∈ opcodeRows, r.mnemonic = i.mnemonic ∧ r.admits (encode i) = true

theorem ofThree (rD rA rB : RegNum) (ww : Width) (f : BitVec 6) (m : String) (p : InstrWord)
    (h : 0xA8000000#32 ||| f.setWidth 32 = p) :
    Row.admits ⟨m, p, 0xFC00073F#32, false⟩ (rWord rD rA rB ww f) = true := by
  simp [Row.admits, rWord_and_mask, h]

theorem ofOne (rD rA : RegNum) (ww : Width) (f : BitVec 6) (m : String) (p : InstrWord)
    (h : 0xA8000000#32 ||| f.setWidth 32 = p) :
    Row.admits ⟨m, p, 0xFC00FF3F#32, false⟩ (rWord rD rA 0#5 ww f) = true := by
  simp [Row.admits, rWord_and_mask_oneSource, h]

/-- A width with double-width results is not WW = 11 (rule R50). -/
theorem bits_ne_of_hasDouble (ww : Width) (h : ww.hasDouble = true) : ww.bits ≠ 0b11#2 := by
  cases ww <;> first | decide | cases h

theorem ofThreeDouble (rD rA rB : RegNum) (ww : Width) (f : BitVec 6) (hw : ww.hasDouble = true)
    (m : String) (p : InstrWord) (h : 0xA8000000#32 ||| f.setWidth 32 = p) :
    Row.admits ⟨m, p, 0xFC00073F#32, true⟩ (rWord rD rA rB ww f) = true := by
  simp [Row.admits, rWord_and_mask, h, bits_ne_of_hasDouble ww hw]

theorem ofOneDouble (rD rA : RegNum) (ww : Width) (f : BitVec 6) (hw : ww.hasDouble = true)
    (m : String) (p : InstrWord) (h : 0xA8000000#32 ||| f.setWidth 32 = p) :
    Row.admits ⟨m, p, 0xFC00FF3F#32, true⟩ (rWord rD rA 0#5 ww f) = true := by
  simp [Row.admits, rWord_and_mask_oneSource, h, bits_ne_of_hasDouble ww hw]

theorem ofImmediate (rD : RegNum) (imm : Imm16) (op : BitVec 6) (m : String) (p : InstrWord)
    (h : op ++ 0#26 = p) :
    Row.admits ⟨m, p, 0xFC1F0000#32, false⟩ (mWord op rD imm) = true := by
  simp [Row.admits, mWord_and_mask, h]

theorem vand (ww : Width) (rD rA rB : RegNum) : Statement (.vand ww rD rA rB) := fun _ =>
  ⟨⟨"vand", 0xA8000001#32, 0xFC00073F#32, false⟩, by decide, rfl, ofThree rD rA rB ww _ _ _ (by decide)⟩

theorem vor (ww : Width) (rD rA rB : RegNum) : Statement (.vor ww rD rA rB) := fun _ =>
  ⟨⟨"vor", 0xA8000002#32, 0xFC00073F#32, false⟩, by decide, rfl, ofThree rD rA rB ww _ _ _ (by decide)⟩

theorem vxor (ww : Width) (rD rA rB : RegNum) : Statement (.vxor ww rD rA rB) := fun _ =>
  ⟨⟨"vxor", 0xA8000003#32, 0xFC00073F#32, false⟩, by decide, rfl, ofThree rD rA rB ww _ _ _ (by decide)⟩

theorem vnot (ww : Width) (rD rA : RegNum) : Statement (.vnot ww rD rA) := fun _ =>
  ⟨⟨"vnot", 0xA8000004#32, 0xFC00FF3F#32, false⟩, by decide, rfl, ofOne rD rA ww _ _ _ (by decide)⟩

theorem vmov (ww : Width) (rD rA : RegNum) : Statement (.vmov ww rD rA) := fun _ =>
  ⟨⟨"vmov", 0xA8000005#32, 0xFC00FF3F#32, false⟩, by decide, rfl, ofOne rD rA ww _ _ _ (by decide)⟩

theorem vadd (ww : Width) (rD rA rB : RegNum) : Statement (.vadd ww rD rA rB) := fun _ =>
  ⟨⟨"vadd", 0xA8000006#32, 0xFC00073F#32, false⟩, by decide, rfl, ofThree rD rA rB ww _ _ _ (by decide)⟩

theorem vsub (ww : Width) (rD rA rB : RegNum) : Statement (.vsub ww rD rA rB) := fun _ =>
  ⟨⟨"vsub", 0xA8000007#32, 0xFC00073F#32, false⟩, by decide, rfl, ofThree rD rA rB ww _ _ _ (by decide)⟩

theorem vmuleu (ww : Width) (rD rA rB : RegNum) : Statement (.vmuleu ww rD rA rB) := fun h =>
  ⟨⟨"vmuleu", 0xA8000008#32, 0xFC00073F#32, true⟩, by decide, rfl, ofThreeDouble rD rA rB ww _ h _ _ (by decide)⟩

theorem vmulou (ww : Width) (rD rA rB : RegNum) : Statement (.vmulou ww rD rA rB) := fun h =>
  ⟨⟨"vmulou", 0xA8000009#32, 0xFC00073F#32, true⟩, by decide, rfl, ofThreeDouble rD rA rB ww _ h _ _ (by decide)⟩

theorem vsll (ww : Width) (rD rA rB : RegNum) : Statement (.vsll ww rD rA rB) := fun _ =>
  ⟨⟨"vsll", 0xA800000A#32, 0xFC00073F#32, false⟩, by decide, rfl, ofThree rD rA rB ww _ _ _ (by decide)⟩

theorem vsrl (ww : Width) (rD rA rB : RegNum) : Statement (.vsrl ww rD rA rB) := fun _ =>
  ⟨⟨"vsrl", 0xA800000B#32, 0xFC00073F#32, false⟩, by decide, rfl, ofThree rD rA rB ww _ _ _ (by decide)⟩

theorem vsra (ww : Width) (rD rA rB : RegNum) : Statement (.vsra ww rD rA rB) := fun _ =>
  ⟨⟨"vsra", 0xA800000C#32, 0xFC00073F#32, false⟩, by decide, rfl, ofThree rD rA rB ww _ _ _ (by decide)⟩

theorem vrtth (ww : Width) (rD rA : RegNum) : Statement (.vrtth ww rD rA) := fun _ =>
  ⟨⟨"vrtth", 0xA800000D#32, 0xFC00FF3F#32, false⟩, by decide, rfl, ofOne rD rA ww _ _ _ (by decide)⟩

theorem vdivu (ww : Width) (rD rA rB : RegNum) : Statement (.vdivu ww rD rA rB) := fun _ =>
  ⟨⟨"vdivu", 0xA800000E#32, 0xFC00073F#32, false⟩, by decide, rfl, ofThree rD rA rB ww _ _ _ (by decide)⟩

theorem vmodu (ww : Width) (rD rA rB : RegNum) : Statement (.vmodu ww rD rA rB) := fun _ =>
  ⟨⟨"vmodu", 0xA800000F#32, 0xFC00073F#32, false⟩, by decide, rfl, ofThree rD rA rB ww _ _ _ (by decide)⟩

theorem vsqeu (ww : Width) (rD rA : RegNum) : Statement (.vsqeu ww rD rA) := fun h =>
  ⟨⟨"vsqeu", 0xA8000010#32, 0xFC00FF3F#32, true⟩, by decide, rfl, ofOneDouble rD rA ww _ h _ _ (by decide)⟩

theorem vsqou (ww : Width) (rD rA : RegNum) : Statement (.vsqou ww rD rA) := fun h =>
  ⟨⟨"vsqou", 0xA8000011#32, 0xFC00FF3F#32, true⟩, by decide, rfl, ofOneDouble rD rA ww _ h _ _ (by decide)⟩

theorem vsqrtu (ww : Width) (rD rA : RegNum) : Statement (.vsqrtu ww rD rA) := fun _ =>
  ⟨⟨"vsqrtu", 0xA8000012#32, 0xFC00FF3F#32, false⟩, by decide, rfl, ofOne rD rA ww _ _ _ (by decide)⟩

theorem vld (rD : RegNum) (imm : Imm16) : Statement (.vld rD imm) := fun _ =>
  ⟨⟨"vld", 0x80000000#32, 0xFC1F0000#32, false⟩, by decide, rfl, ofImmediate rD imm _ _ _ (by decide)⟩

theorem vsd (rD : RegNum) (imm : Imm16) : Statement (.vsd rD imm) := fun _ =>
  ⟨⟨"vsd", 0x84000000#32, 0xFC1F0000#32, false⟩, by decide, rfl, ofImmediate rD imm _ _ _ (by decide)⟩

theorem vbeq (rD : RegNum) (imm : Imm16) : Statement (.vbeq rD imm) := fun _ =>
  ⟨⟨"vbeq", 0x88000000#32, 0xFC1F0000#32, false⟩, by decide, rfl, ofImmediate rD imm _ _ _ (by decide)⟩

theorem vbneq (rD : RegNum) (imm : Imm16) : Statement (.vbneq rD imm) := fun _ =>
  ⟨⟨"vbneq", 0x8C000000#32, 0xFC1F0000#32, false⟩, by decide, rfl, ofImmediate rD imm _ _ _ (by decide)⟩

theorem vnop : Statement .vnop := fun _ =>
  ⟨⟨"vnop", 0xF0000000#32, 0xFFFFFFFF#32, false⟩, by decide, rfl, by decide⟩

end Sys2Proof.Laws.MatchesRow
end

