-- ==== Sys2Proof/Tests/Slice0.lean ====
section
/-! SUPPORT. Small tests. Expected values come from the examples of the rules and from 95_test_vectors.md, never from the model. Each test that serves as the witness of a statement's hypotheses names the statement. -/

namespace Sys2Proof.Tests

open Sys2Proof.Machine

/-! ### Helpers -/

/-- A fresh machine with x[1] = a and x[2] = b written. -/
def two (a b : Word) : State := (State.reset.writeReg 1 a).writeReg 2 b

/-- A fresh machine with other parameters. -/
def fresh (cfg : Config) : State := { State.reset with cfg := cfg }

/-- Parameters with R0_ZERO. -/
def zeroCfg : Config := { Config.atReset with r0Zero := true }

/-- Parameters under which a never-written register is drawn afresh at each read. -/
def drawCfg : Config := { Config.atReset with unwrittenReg := .draw }

/-- PC_STEP = 4. -/
def byteCfg : Config := { Config.atReset with pcStep := .four }

/-- DMEM_WORDS = 256, never-written data words fault. -/
def smallCfg : Config := { Config.atReset with dmemWords := 256, unwrittenData := .fault }

/-- What a register holds in a next state. -/
def regAfter (r : Result) (i : RegNum) : Option Word :=
  match r with
  | .next t => some (t.reg i)
  | _ => none

/-- The pc of a next state. -/
def pcAfter (r : Result) : Option Pc :=
  match r with
  | .next t => some t.pc
  | _ => none

/-- A data word of a next state. -/
def wordAfter (r : Result) (a : Nat) : Option Word :=
  match r with
  | .next t => t.dataWord a
  | _ => none

/-- The fault of an outcome. -/
def faultOf (r : Result) : Option Fault :=
  match r with
  | .fault e => some e
  | _ => none

/-- An outcome is a next state. -/
def isNext (r : Result) : Bool :=
  match r with
  | .next _ => true
  | _ => false

/-- One step that fetches the word w. -/
def runs (s : State) (w : Nat) : Result := step (s.withFetchWord 32 w)

/-- The instruction of a word, if it is one. -/
def decoded (w : InstrWord) : Option Instr := (decode w).toOption

/-! ### Well-formedness: one ill-formed term for each check (rule R50) -/

theorem test_wellFormed_refuses :
    (Instr.vmuleu .d 3 1 2).wellFormed = false ∧ (Instr.vmulou .d 3 1 2).wellFormed = false ∧
    (Instr.vsqeu .d 3 1).wellFormed = false ∧ (Instr.vsqou .d 3 1).wellFormed = false := by decide

/-- Witness of DecodeOfEncodeIsTheInstruction. -/
theorem test_wellFormed_accepts :
    (Instr.vmuleu .w 31 30 29).wellFormed = true ∧ (Instr.vsqrtu .d 3 1).wellFormed = true ∧
    (Instr.vbeq 31 0xFFFF).wellFormed = true := by decide

/-! ### Decoding: a word of every constructor (95_test_vectors.md, 2.1, and the rules' examples) -/

theorem test_decode_logical :
    decoded 0xA8611041 = some (.vand .h 3 1 2) ∧ decoded 0xA8611002 = some (.vor .b 3 1 2) ∧
    decoded 0xA8611083 = some (.vxor .w 3 1 2) ∧ decoded 0xA8610084 = some (.vnot .w 3 1) ∧
    decoded 0xA81F0005 = some (.vmov .b 0 31) := by decide

theorem test_decode_addMul :
    decoded 0xA82108C6 = some (.vadd .d 1 1 1) ∧ decoded 0xA8611047 = some (.vsub .h 3 1 2) ∧
    decoded 0xABFEE808 = some (.vmuleu .b 31 30 29) ∧ decoded 0xA8611089 = some (.vmulou .w 3 1 2) := by
  decide

theorem test_decode_shift :
    decoded 0xA884204A = some (.vsll .h 4 4 4) ∧ decoded 0xA86110CB = some (.vsrl .d 3 1 2) ∧
    decoded 0xA861108C = some (.vsra .w 3 1 2) ∧ decoded 0xA861004D = some (.vrtth .h 3 1) := by decide

theorem test_decode_divSqrt :
    decoded 0xA861100E = some (.vdivu .b 3 1 2) ∧ decoded 0xA86110CF = some (.vmodu .d 3 1 2) ∧
    decoded 0xA8610050 = some (.vsqeu .h 3 1) ∧ decoded 0xA8610091 = some (.vsqou .w 3 1) ∧
    decoded 0xA9290052 = some (.vsqrtu .h 9 9) := by decide

theorem test_decode_memoryBranch :
    decoded 0x80E00010 = some (.vld 7 0x0010) ∧ decoded 0x84E00011 = some (.vsd 7 0x0011) ∧
    decoded 0x8BE0FFFF = some (.vbeq 31 0xFFFF) ∧ decoded 0x8CA00020 = some (.vbneq 5 0x0020) ∧
    decoded 0xF0000000 = some .vnop := by decide

/-- The refused words of 95_test_vectors.md, 2.1. -/
theorem test_decode_refuses :
    [0xA8611101, 0xA8611401, 0xA8610884, 0xA86110C8, 0xA86110C9, 0xA86100D1, 0xA86100D0, 0xA8610000,
      0xA8610013, 0xA861003F, 0x80E10010, 0xF0000001, 0xF3E00000, 0x00000000, 0xFFFFFFFF, 0x90000000,
      0xA4000001, 0xAC000001].all (fun w => decoded w == none) = true := by decide

/-- The encoder, on words of 95_test_vectors.md, 2.1; a list of other than four bytes is refused. -/
theorem test_encode :
    encode (.vmuleu .b 31 30 29) = 0xABFEE808 ∧ encode (.vsqrtu .h 9 9) = 0xA9290052 ∧
    encode (.vbeq 31 0xFFFF) = 0x8BE0FFFF ∧ encode .vnop = 0xF0000000 ∧
    decodeBytes [0xF0, 0, 0, 0] = .ok .vnop ∧ decodeBytes [0xF0, 0, 0] = .error .notOneWord :=
  ⟨rfl, rfl, rfl, rfl, rfl, rfl⟩

/-- Witness of EncodeOfDecodeIsTheWord. -/
theorem test_decode_vmuleuw : decode 0xA8611088#32 = .ok (.vmuleu .w 3 1 2) := rfl

/-- Witnesses of DecodeAgreesWithMatchTable: a word a row admits, and a fetched word none admits. -/
theorem test_rows :
    (⟨"vmuleu", 0xA8000008#32, 0xFC00073F#32, true⟩ : Row) ∈ opcodeRows ∧
    (⟨"vmuleu", 0xA8000008#32, 0xFC00073F#32, true⟩ : Row).admits 0xA8611088 = true ∧
    (State.reset.withFetchWord 32 0xA86110C8).fetch = .word 0xA86110C8 ∧
    (∀ r ∈ opcodeRows, r.admits 0xA86110C8 = false) := by decide

/-! ### Reserved words as the next instruction: witnesses of UnassignedCodesAreIllegal,
NonzeroFieldsAreIllegal and ReservedWidthsAreIllegal, one for each clause -/

theorem test_unassigned :
    (State.reset.withFetchWord 32 0x90000000).fetch = .word 0x90000000 ∧
    fieldOp 0x90000000 ∉ [0b100000#6, 0b100001#6, 0b100010#6, 0b100011#6, 0b101010#6, 0b111100#6] ∧
    faultOf (runs State.reset 0x00000000) = some (.illegalInstruction 0x00000000) ∧
    faultOf (runs State.reset 0xFFFFFFFF) = some (.illegalInstruction 0xFFFFFFFF) ∧
    fieldFunct 0xA8610000 = 0#6 ∧
    faultOf (runs State.reset 0xA8610000) = some (.illegalInstruction 0xA8610000) ∧
    0b010011#6 ≤ fieldFunct 0xA8610013 ∧
    faultOf (runs State.reset 0xA8610013) = some (.illegalInstruction 0xA8610013) := by decide

theorem test_nonzero :
    (fieldOp 0xA8611101 = 0b101010#6 ∧ fieldZero 0xA8611101 ≠ 0#3 ∧
      faultOf (runs State.reset 0xA8611101) = some (.illegalInstruction 0xA8611101)) ∧
    (fieldFunct 0xA8610884 = 4#6 ∧ fieldRB 0xA8610884 ≠ 0#5 ∧
      faultOf (runs State.reset 0xA8610884) = some (.illegalInstruction 0xA8610884)) ∧
    (fieldOp 0x80E10010 = 0b100000#6 ∧ fieldRA 0x80E10010 ≠ 0#5 ∧
      faultOf (runs State.reset 0x80E10010) = some (.illegalInstruction 0x80E10010)) ∧
    (fieldOp 0xF3E00000 = 0b111100#6 ∧ (0xF3E00000#32).extractLsb' 0 26 ≠ 0#26 ∧
      faultOf (runs State.reset 0xF3E00000) = some (.illegalInstruction 0xF3E00000)) := by decide

theorem test_reservedWidth :
    (fieldOp 0xA86100D1 = 0b101010#6 ∧ fieldFunct 0xA86100D1 = 17#6 ∧ fieldWW 0xA86100D1 = 0b11#2 ∧
      faultOf (runs State.reset 0xA86100D1) = some (.illegalInstruction 0xA86100D1)) ∧
    faultOf (exec (.vmuleu .d 3 1 2) State.reset) = some (.illegalInstruction 0xA86110C8) := by decide

/-! ### Fetch, the end of a run, and the order of faults -/

/-- Witness of StepRunsTheDecodedInstruction; the host's placing, also past the top (log 22). -/
theorem test_withFetchWord :
    (State.reset.withFetchWord 32 0x80E00010).fetch = .word 0x80E00010 ∧
    decode 0x80E00010 = .ok (.vld 7 0x0010) ∧
    (({ State.reset with pc := .past } : State).withFetchWord 32 0xF0000000).fetch = .word 0xF0000000 ∧
    isNext (runs State.reset 0x80E00010) = true := ⟨by decide, rfl, by decide, by decide⟩

/-- Witnesses of FetchIsDefinedInsideTheImage and RunEndsExactlyAtEndPc: a word within the image, an
address that is no multiple of PC_STEP, one beyond the image, a word missing from it, the top, and
END_PC (95_test_vectors.md, 2.10). -/
theorem test_fetch :
    (({ (fresh byteCfg).loadProgram [0x80200000, 0x88200006, 0xF0000000] with pc := .at 8 } : State).fetch
      = .word 0xF0000000) ∧
    faultOf (step { (fresh byteCfg).loadProgram [0x80200000, 0x88200006, 0xF0000000] with pc := .at 6 })
      = some (.fetchFault 6) ∧
    faultOf (step { State.reset.loadProgram [0x80200000, 0x88200100, 0xF0000000] with pc := .at 0x100 })
      = some (.fetchFault 0x100) ∧
    faultOf (step { State.reset with imemWords := 1 }) = some (.fetchFault 0) ∧
    faultOf (step { State.reset with pc := .past }) = some (.fetchFault (2 ^ 32)) ∧
    ({ State.reset.loadProgram [0xF0000000] with pc := .at 1 } : State).fetch = .endOfRun := by decide

/-- Witnesses of FaultsComeInOrder and OnlyTheNamedFaultsStop (95_test_vectors.md, 2.10): a fetch before
all else; a reserved word before the data access; a word that reads registers nothing has written,
which stops nothing here (log 4); the address of a load and of a store, at the boundary. -/
theorem test_faultOrder :
    faultOf (step { State.reset with pc := .at 9 }) = some (.fetchFault 9) ∧
    faultOf (runs (fresh smallCfg) 0x84E18000) = some (.illegalInstruction 0x84E18000) ∧
    isNext (runs (fresh drawCfg) 0xA86110C6) = true ∧ isNext (runs State.reset 0xA86110C6) = true ∧
    (Instr.vadd .d 3 1 2).dataAddress = none ∧ (Instr.vld 1 0x8000).dataAddress = some 0x8000 ∧
    faultOf (runs (fresh smallCfg) 0x80208000) = some (.dataAccessFault 0x8000) ∧
    faultOf (runs (fresh smallCfg) 0x84200100) = some (.dataAccessFault 0x100) ∧
    isNext (runs (fresh smallCfg) 0x842000FF) = true := by decide

/-- Witnesses of EveryInstructionCompletes: two sources, written and never written, a load of a stored word, a load that draws,
a store at the last implemented word, a branch. -/
theorem test_completes :
    isNext (exec (.vadd .d 3 1 2) (two 5 6)) = true ∧
    isNext (exec (.vadd .d 3 1 2) (fresh drawCfg)) = true ∧
    ((two 5 6).storeWord 255 9).dataWord 255 ≠ none ∧
    isNext (exec (.vld 3 255) ((two 5 6).storeWord 255 9)) = true ∧
    State.reset.cfg.unwrittenData = .draw ∧ isNext (exec (.vld 3 255) State.reset) = true ∧
    isNext (exec (.vsd 3 255) (fresh smallCfg)) = true ∧
    isNext (exec (.vbeq 3 255) State.reset) = true := by decide

/-! ### The state invariant and the host's images -/

/-- Witness of EveryStepKeepsTheInvariant: a machine about to run vnop meets the invariant and steps. -/
theorem test_invariant :
    (State.start Config.atReset [0xF0000000] []).Inv ∧
    isNext (step (State.start Config.atReset [0xF0000000] [])) = true := by
  refine ⟨⟨by decide, by decide, by decide, ?_, by decide, ⟨?_, ?_⟩, .inl (by decide)⟩, by decide⟩
  · exact readByte_programBytes_isSome [0xF0000000]
  · intro a j _; simp [State.start, State.loadDataImage, State.reset, Memory.readByte]
  · intro x; simp [State.start, State.loadDataImage, State.reset, Memory.readByte]

/-- Witness of StartMeetsTheInvariant, at the smallest memory and with PC_STEP = 4. -/
theorem test_start :
    (⟨true, .four, 1, .draw, .fault⟩ : Config).wf ∧
    [0x80200000#32, 0xF0000000#32].length * PcStep.four.toNat ≤ 2 ^ 32 := by decide

/-- Witness of NothingWritesTheProgram: a store that steps, alone and as a run. -/
theorem test_store_leaves_program :
    isNext (exec (.vsd 1 0) (two 5 6)) = true ∧
    (match core.run 1 (State.reset.loadProgram [0x84200000]) with
      | .next t => t.imem == programBytes 0 [0x84200000]
      | _ => false) = true := by decide

/-- Witnesses of ProgramImageIsFetched: within the image, at its end, beyond it, and misaligned. -/
theorem test_image :
    (4#32).toNat = 1 * (fresh byteCfg).cfg.pcStep.toNat ∧
    [0xF0000000#32, 0x80200000#32][1]? = some 0x80200000#32 ∧
    (8#32).toNat = [0xF0000000#32, 0x80200000#32].length * (fresh byteCfg).cfg.pcStep.toNat ∧
    (12#32).toNat = 3 * (fresh byteCfg).cfg.pcStep.toNat ∧
    (6#32).toNat % (fresh byteCfg).cfg.pcStep.toNat ≠ 0 := by decide

/-- Witness of DataImageIsLoaded: the first and the last word of the default memory. -/
theorem test_dataImage :
    (∀ p ∈ [(0, 5#64), (65535, 0xAA#64)], p.1 < Config.atReset.dmemWords) ∧
    ([(0, 5#64), (65535, 0xAA#64)].map Prod.fst).Nodup ∧
    (State.start Config.atReset [] [(0, 5#64), (65535, 0xAA#64)]).dataWord 65535 = some 0xAA#64 ∧
    (State.start Config.atReset [] [(0, 5#64), (65535, 0xAA#64)]).dataWord 1 = none := by decide

/-- Rule R29 (ImagesAreBigEndian), at the first and the last byte. -/
theorem test_byteOrder :
    (State.reset.storeWord 2 0x0123456789ABCDEF).dmem.readByte 16 = some 0x01 ∧
    (State.reset.storeWord 2 0x0123456789ABCDEF).dmem.readByte 23 = some 0xEF ∧
    (State.reset.loadProgram [0xF0000000, 0x80E00010]).imem.readByte 4 = some 0x80 ∧
    (State.reset.loadProgram [0xF0000000, 0x80E00010]).imem.readByte 7 = some 0x10 := by decide

/-- The canonical form: a second write of a word lists no address twice. -/
theorem test_canonical :
    ((State.reset.storeWord 3 1).storeWord 2 5).dmem.wf ∧
    (((State.reset.storeWord 3 1).storeWord 2 5).storeWord 3 2).dmem.length = 16 := by decide

/-! ### Registers -/

/-- Witnesses of RegisterZeroIsHardwiredUnderR0Zero and RegisterReads: each treatment (rules R12, R114),
and the two ways a register is ordinary. -/
theorem test_registers :
    (fresh zeroCfg).cfg.r0Zero = true ∧ (fresh zeroCfg).hardwired 0 = true ∧
    (fresh zeroCfg).hardwired 1 = false ∧ State.reset.cfg.r0Zero = false ∧
    State.reset.hardwired 0 = false ∧ (two 5 6).isWritten 1 = true ∧
    State.reset.isWritten 1 = false ∧ (fresh drawCfg).isWritten 1 = false ∧
    (fresh drawCfg).cfg.unwrittenReg = .draw ∧ State.reset.cfg.unwrittenReg = .value := by decide

/-- A hardwired destination: nothing written, the pc advanced (rule R12); witness of
OnlyTheDestinationChanges for that form. -/
theorem test_hardwired_destination :
    (match exec (.vmov .d 0 1) (((fresh zeroCfg).writeReg 1 7)) with
      | .next t => t.reg 0 == 0 && !t.isWritten 0 && t.pc == .at 1
      | _ => false) = true := by decide

/-- Witness of OnlyTheDestinationChanges and of UnreadRegistersDoNotMatter: x[4] is not a source. -/
theorem test_unread :
    (4 : RegNum) ∉ (Instr.vadd .d 3 1 2).sources ∧ isNext (exec (.vadd .d 3 1 2) (two 5 6)) = true := by
  decide

/-- Reading a register twice under the treatment `draw` draws twice (rule R114). -/
theorem test_draws :
    (match exec (.vadd .d 3 1 1) (fresh drawCfg) with
      | .next t => t.draws == 2 && t.isWritten 3
      | _ => false) = true := by decide

/-! ### Lanes -/

/-- Witnesses of LanesFollowTheManualsLabels and DoubleLaneIsAPairOfLanes: the table of rule R6. -/
theorem test_lanes :
    7 < Width.b.lanes ∧ lane 0x0123456789ABCDEF 8 0 = 0x01 ∧ lane 0x0123456789ABCDEF 8 7 = 0xEF ∧
    lane 0x0123456789ABCDEF 16 1 = 0x4567 ∧ lane 0x0123456789ABCDEF 32 1 = 0x89ABCDEF ∧
    lane 0x0123456789ABCDEF 64 0 = 0x0123456789ABCDEF ∧
    Width.h.hasDouble = true ∧ 1 < Width.h.lanes / 2 := by decide

/-! ### Logical and move (rules R60 to R65; vectors 2.2). Each test through `two` is also the witness of
its instruction's statement: this is what its two reads answer. -/

theorem test_sources (a b : Word) :
    (two a b).readReg 1 = (a, two a b) ∧ (two a b).readReg 2 = (b, two a b) := ⟨rfl, rfl⟩

/-- Witness of VandWritesTheAnd. -/
theorem test_vand : regAfter (runs (two 0x0123456789ABCDEF 0x00FF00FF00FF00FF) 0xA8611001) 3
    = some 0x0023006700AB00EF := by decide

/-- Witness of VorWritesTheOr. -/
theorem test_vor : regAfter (runs (two 0x0123456789ABCDEF 0x00FF00FF00FF00FF) 0xA8611042) 3
    = some 0x01FF45FF89FFCDFF := by decide

/-- Witness of VxorWritesTheExclusiveOr. -/
theorem test_vxor : regAfter (runs (two 0x0123456789ABCDEF 0x00FF00FF00FF00FF) 0xA8611083) 3
    = some 0x01DC45988954CD10 := by decide

/-- `vxorb r2, r2, r2`: a source that is the destination. -/
theorem test_vxor_clears : regAfter (runs (two 5 0x1234) 0xA8421003) 2 = some 0 := by decide

/-- Witness of VnotWritesTheComplement. -/
theorem test_vnot : regAfter (runs (two 0x0123456789ABCDEF 0) 0xA8610084) 3
    = some 0xFEDCBA9876543210 := by decide

/-- Witness of VmovCopiesTheRegister and, with lane 7 of 8, of WidthDoesNotMatterForBitwise. -/
theorem test_vmov : regAfter (runs (two 0x0123456789ABCDEF 0) 0xA8610005) 3
    = some 0x0123456789ABCDEF ∧ 7 < Width.b.lanes := by decide

/-! ### Add, subtract and multiply (rules R66 to R69; vectors 1.1, 2.3, 2.4) -/

/-- Witness of VaddAddsLanes; the carries out of bytes 1, 3 and 7 dropped. -/
theorem test_vaddb : regAfter (runs (two 0x00FF7F80FFFFFFFF 0x0101018000000001) 0xA8611006) 3
    = some 0x01008000FFFFFF00 := by decide

theorem test_vaddw : regAfter (runs (two 0x00FF7F80FFFFFFFF 0x0101018000000001) 0xA8611086) 3
    = some 0x0200810000000000 := by decide

/-- Witness of VsubSubtractsLanes. -/
theorem test_vsubh : regAfter (runs (two 0x0000000100000000 0x0000000000000001) 0xA8611047) 3
    = some 0x000000010000FFFF := by decide

theorem test_vsubd : regAfter (runs (two 0x0000000100000000 0x0000000000000001) 0xA86110C7) 3
    = some 0x00000000FFFFFFFF := by decide

/-- Witness of VmuleuMultipliesEvenLanes; the source's own example (1.1). -/
theorem test_vmuleuh : regAfter (runs (two 0x0002000300040005 0x0006000700080009) 0xA8611048) 3
    = some 0x0000000C00000020 := by decide

theorem test_vmuleub : regAfter (runs (two 0xFF02FFFE00030004 0xFF03FFFD00050006) 0xA8611008) 3
    = some 0xFE01FE0100000000 := by decide

/-- Witness of VmulouMultipliesOddLanes. -/
theorem test_vmulouh : regAfter (runs (two 0x0002000300040005 0x0006000700080009) 0xA8611049) 3
    = some 0x000000150000002D := by decide

theorem test_vmulouw : regAfter (runs (two 0xFFFFFFFF00000003 0xFFFFFFFF12345678) 0xA8611089) 3
    = some 0x00000000369D0368 := by decide

/-! ### Shifts and rotate (rules R70 to R74; vectors 2.5) -/

/-- Witness of VsllShiftsLeft. -/
theorem test_vsllb : regAfter (runs (two 0x81F0FF0180000001 0x0107080904FF0003) 0xA861100A) 3
    = some 0x0200FF0200000008 := by decide

/-- A shift by the width is a shift by zero. -/
theorem test_vsll_width : regAfter (runs (two 0xFFFFFFFFFFFFFFFF 0x0808080808080808) 0xA861100A) 3
    = some 0xFFFFFFFFFFFFFFFF := by decide

/-- Witness of VsrlShiftsRight. -/
theorem test_vsrlh : regAfter (runs (two 0x81F0FF0180000001 0x0004001F00100001) 0xA861104B) 3
    = some 0x081F000180000000 := by decide

theorem test_vsrld : regAfter (runs (two 0x81F0FF0180000001 0x3F) 0xA86110CB) 3 = some 1 := by decide

/-- Witness of VsraShiftsRightArithmetic. -/
theorem test_vsrah : regAfter (runs (two 0x81F0FF0180000001 0x0004001F00100001) 0xA861104C) 3
    = some 0xF81FFFFF80000000 := by decide

theorem test_vsrad : regAfter (runs (two 0x81F0FF0180000001 0x3F) 0xA86110CC) 3
    = some 0xFFFFFFFFFFFFFFFF := by decide

/-- Witness of OnlyTheLowAmountBitsMatter: amounts 8 and 0 agree in the low three bits of a byte. -/
theorem test_amounts :
    ∀ k, k < Width.b.lanes → lane 0x0808080808080808 Width.b.size k % 2 ^ (Width.b.bits.toNat + 3) =
      lane 0 Width.b.size k % 2 ^ (Width.b.bits.toNat + 3) := by decide

/-- Witness of VrtthExchangesHalves: nibbles of bytes, and a destination that is not hardwired. -/
theorem test_vrtthb : regAfter (runs (two 0x0123456789ABCDEF 0) 0xA861000D) 3
    = some 0x1032547698BADCFE ∧ (two 0x0123456789ABCDEF 0).hardwired 3 = false := by decide

theorem test_vrtthw : regAfter (runs (two 0x0123456789ABCDEF 0) 0xA861008D) 3
    = some 0x45670123CDEF89AB := by decide

/-! ### Divide, modulo, square, square root (rules R75 to R80; vectors 2.6, 2.7) -/

/-- Witness of VdivuDividesLanes. -/
theorem test_vdivub : regAfter (runs (two 0x64FF0A0700FF1080 0x0710030205FF0380) 0xA861100E) 3
    = some 0x0E0F030300010501 := by decide

theorem test_vdivud : regAfter (runs (two 0xFFFFFFFFFFFFFFFF 1) 0xA86110CE) 3
    = some 0xFFFFFFFFFFFFFFFF := by decide

/-- Witness of VmoduTakesRemainders. -/
theorem test_vmoduh : regAfter (runs (two 0x64FF0A0700FF1080 0x0710030205FF0380) 0xA861104F) 3
    = some 0x021F010100FF0280 := by decide

theorem test_vmodud : regAfter (runs (two 0x64FF0A0700FF1080 0x0710030205FF0380) 0xA86110CF) 3
    = some 0x021EDFEAAD0CDF80 := by decide

/-- Witness of DivisionByZeroStaysInItsLane: half-word 1 of the divisor is zero, the instruction
completes, and half-words 0, 2 and 3 are exact. -/
theorem test_divisor_zero :
    isNext (exec (.vdivu .h 3 1 2) (two 0x0064FFFF00000001 0x0007000000050002)) = true ∧
    lane 0x0007000000050002 16 1 = 0 ∧
    (∀ k ∈ [(0, 0xE, 2), (2, 0, 0), (3, 0, 1)],
      lane (zipLanes .h (divLane 16) 0x0064FFFF00000001 0x0007000000050002) 16 k.1 = k.2.1 ∧
      lane (zipLanes .h (modLane 16) 0x0064FFFF00000001 0x0007000000050002) 16 k.1 = k.2.2) := by
  refine ⟨rfl, by decide, fun k hk => ⟨?_, ?_⟩⟩
  all_goals
    simp only [List.mem_cons, List.not_mem_nil, or_false] at hk
    rcases hk with rfl | rfl | rfl <;> (refine (lane_zipLanes .h _ _ _ _ (by decide)).trans ?_; rfl)

/-- Witness of VsqeuSquaresEvenLanes: its register holds a value. -/
theorem test_vsqeub : regAfter (runs (two 0xFF02FFFE00030004 0) 0xA8610010) 3
    = some 0xFE01FE0100000000 ∧ (two 0xFF02FFFE00030004 0).holds 1 = true ∧ Width.b ≠ .d := by decide

theorem test_vsqeuw : regAfter (runs (two 0xFF02FFFE00030004 0) 0xA8610090) 3
    = some 0xFE06FA0503F40004 := by decide

/-- Witness of VsqouSquaresOddLanes. -/
theorem test_vsqoub : regAfter (runs (two 0xFF02FFFE00030004 0) 0xA8610011) 3
    = some 0x0004FC0400090010 ∧ (two 0xFF02FFFE00030004 0).holds 1 = true := by decide

theorem test_vsqouw : regAfter (runs (two 0xFF02FFFE00030004 0) 0xA8610091) 3
    = some 0x0000000900180010 := by decide

/-- Witness of VsqrtuTakesFloorRoots. -/
theorem test_vsqrtub : regAfter (runs (two 0x10FF0F1900010051 0) 0xA8610012) 3
    = some 0x040F030500010009 := by decide +kernel

theorem test_vsqrtud : regAfter (runs (two 0x10FF0F1900010051 0) 0xA86100D2) 3
    = some 0x0000000041F66A28 := by decide +kernel

/-! ### Load and store (rules R82, R83; vectors 2.8) -/

/-- Witness of VldLoadsTheWord, first clause. -/
theorem test_vld : regAfter (runs (State.reset.storeWord 0x10 0x0123456789ABCDEF) 0x80E00010) 7
    = some 0x0123456789ABCDEF := by decide

/-- Witnesses of VldLoadsTheWord, the other clauses, at the boundary DMEM_WORDS = 256: the last
implemented word, without a value, drawn or faulting, and the first word outside. -/
theorem test_vld_boundary :
    (effectiveAddress 0x00FF).toNat < (fresh smallCfg).cfg.dmemWords ∧
    (fresh smallCfg).dataWord (effectiveAddress 0x00FF).toNat = none ∧
    faultOf (exec (.vld 1 0x00FF) (fresh smallCfg)) = some (.dataAccessFault 0xFF) ∧
    isNext (exec (.vld 1 0x00FF) (fresh { smallCfg with unwrittenData := .draw })) = true ∧
    faultOf (exec (.vld 1 0x0100) (fresh smallCfg)) = some (.dataAccessFault 0x100) ∧
    regAfter (exec (.vld 1 0xFFFF) (State.reset.storeWord 0xFFFF 0xAA)) 1 = some 0xAA := by decide

/-- Witness of VsdStoresTheRegister and LoadReturnsTheLatestStore: the stored word, its neighbours, and
a vnop between store and load. -/
theorem test_vsd :
    wordAfter (runs (State.reset.writeReg 7 0x0123456789ABCDEF) 0x84E00011) 0x11
      = some 0x0123456789ABCDEF ∧
    wordAfter (runs (State.reset.writeReg 7 0x0123456789ABCDEF) 0x84E00011) 0x12 = none ∧
    Instr.vnop.storeAddress ≠ some 0x11 ∧ (0x12 : Imm16) ≠ 0x11 := by decide

/-- Witness of VsdStoresTheRegister at the boundary DMEM_WORDS = 256. -/
theorem test_vsd_boundary :
    wordAfter (exec (.vsd 1 0x00FF) ((fresh smallCfg).writeReg 1 3)) 0xFF = some 3 ∧
    faultOf (exec (.vsd 1 0x0100) ((fresh smallCfg).writeReg 1 3)) = some (.dataAccessFault 0x100) := by
  decide

/-- Witnesses of OnlyLoadAndStoreReachData: an instruction of each kind, and the byte after the stored
word. -/
theorem test_data_frame :
    (Instr.vadd .d 3 1 2).storeAddress = none ∧ (Instr.vadd .d 3 1 2).dataAddress = none ∧
    (Instr.vsd 1 0x10).storeAddress = some 0x10 ∧ isNext (exec (.vsd 1 0x10) (two 5 6)) = true ∧
    8 * (effectiveAddress 0x10).toNat + 8 ≤ 0x88 := by decide

/-- Witness of EffectiveAddressIsZeroExtended at the greatest index. -/
theorem test_effectiveAddress : effectiveAddress 0xFFFF = 0x0000FFFF#32 := by decide

/-! ### Branches and vnop (rules R85 to R89; vectors 2.9) -/

/-- Witness of VbeqBranchesOnZero: taken, and not taken with one bit set in another lane. -/
theorem test_vbeq :
    pcAfter (runs { State.reset.writeReg 5 0 with pc := .at 8 } 0x88A00020) = some (.at 0x20) ∧
    pcAfter (runs { State.reset.writeReg 5 0x0000000100000000 with pc := .at 8 } 0x88A00020)
      = some (.at 9) := by decide

/-- Witness of VbneqBranchesOnNonzero, with PC_STEP = 4. -/
theorem test_vbneq :
    pcAfter (runs { (fresh byteCfg).writeReg 5 0x8000000000000000 with pc := .at 32 } 0x8CA00020)
      = some (.at 0x20) ∧
    pcAfter (runs { (fresh byteCfg).writeReg 5 0 with pc := .at 32 } 0x8CA00020) = some (.at 36) := by
  decide

/-- Witness of OnlyBranchesTransferControl: the target is zero-extended. -/
theorem test_branch_target :
    pcAfter (exec (.vbeq 31 0xFFFF) State.reset) = some (.at 0x0000FFFF) ∧
    (Instr.vbeq 31 0xFFFF).target = some 0xFFFF ∧ (Instr.vadd .d 3 1 2).target = none := by decide

/-- Witness of VnopOnlyAdvances. -/
theorem test_vnop : pcAfter (runs { State.reset with pc := .at 3 } 0xF0000000) = some (.at 4) := by decide

/-- Witnesses of AdvanceDoesNotWrap: the last address that advances, the first that does not, a state
past the top, and a taken branch to an address that is no multiple of 4 (vectors 2.10). -/
theorem test_advance :
    (Pc.at 0xFFFFFFFE).next .one = .at 0xFFFFFFFF ∧ (Pc.at 0xFFFFFFFF).next .one = .past ∧
    (Pc.at 0xFFFFFFFC).next .four = .past ∧ Pc.past.next .one = .past ∧
    ({ State.reset with pc := .past } : State).endPc ≠ 2 ^ 32 ∧
    pcAfter (exec (.vbeq 1 0x0006) (fresh byteCfg)) = some (branchTarget 0x0006) ∧
    (0x0006 : Imm16).toNat % (fresh byteCfg).cfg.pcStep.toNat ≠ 0 ∧
    (State.reset.withFetchWord 32 0xF0000000).fetch = .word 0xF0000000 := by decide

/-- Witness of VnopInsertionChangesNothing. -/
theorem test_vnop_first :
    isNext (exec .vnop (two 5 6)) = true ∧ isNext (exec (.vadd .d 3 1 2) (two 5 6)) = true := by decide

/-- Witness of IdiomsDoWhatTheySay: a register that holds a value and a destination not hardwired. -/
theorem test_idioms : (two 5 6).holds 1 = true ∧ (two 5 6).hardwired 3 = false := by decide

/-! ### Assembler (rules R52 to R55; program P2) -/

theorem test_assembly_text : (Instr.vadd .w 3 1 2).assembly = "vaddw r3, r1, r2" := by decide +kernel

theorem test_assemble :
    assemble .four ["vld r1, 0", "loop: vsubd r1, r1, r2 ; counter", "  VBNEQW r1, loop"] =
      some [0x80200000, 0xA82110C7, 0x8C200004] := by decide +kernel

end Sys2Proof.Tests
end

/-! The lanes of a register as the manual labels them (00_scope.md rules R5, R7, R8): a lane bit by
bit, and a double-width lane as a pair of lanes. -/
section

namespace Sys2Proof

/-- A lane the width has lies inside the register. -/
theorem Width.lane_end_le {ww : Width} {k : Nat} (h : k < ww.lanes) : (k + 1) * ww.size ≤ 64 :=
  ww.lanes_mul_size ▸ Nat.mul_le_mul_right ww.size h

/-- A width with double-width results has two lanes for each of them (rule R8). -/
theorem Width.two_mul_half_lanes {ww : Width} (h : ww.hasDouble = true) :
    2 * (ww.lanes / 2) = ww.lanes := by
  cases ww with
  | b | h | w => rfl
  | d => cases h

end Sys2Proof

namespace Sys2Proof.Machine

/-- Bit i of a lane, from the least significant end, is the register bit i places above the lane's
lowest. -/
theorem lane_testBit (v : Word) {size i : Nat} (k : Nat) (h : i < size) :
    (lane v size k).testBit i = v.getLsbD (64 - (k + 1) * size + i) := by
  simp [lane, Nat.testBit_mod_two_pow, h, BitVec.getLsbD]

/-- Bit j of a lane, from the most significant end, is register bit k*size + j from the most
significant end (rule R5). -/
theorem lane_testBit_eq_getMsbD (v : Word) {size j k : Nat} (hk : (k + 1) * size ≤ 64)
    (hj : j < size) : (lane v size k).testBit (size - 1 - j) = v.getMsbD (k * size + j) := by
  have hend : (k + 1) * size = k * size + size := Nat.succ_mul k size
  have hin : k * size + j < 64 := by omega
  have hpos : 64 - (k + 1) * size + (size - 1 - j) = 64 - 1 - (k * size + j) := by omega
  rw [lane_testBit v k (by omega), hpos, BitVec.getMsbD, decide_eq_true hin, Bool.true_and]

/-- A lane of double width is two adjacent lanes, the even one the more significant half: split the
2*size bits that start at the odd lane's lowest bit (rules R7, R8). -/
theorem lane_double (v : Word) {size j : Nat} (h : (2 * j + 1 + 1) * size ≤ 64) :
    lane v (2 * size) j = lane v size (2 * j) * 2 ^ size + lane v size (2 * j + 1) := by
  have hdouble : (j + 1) * (2 * size) = (2 * j + 1 + 1) * size := by ring
  have heven : 64 - (2 * j + 1) * size = 64 - (2 * j + 1 + 1) * size + size := by
    have hsucc : (2 * j + 1 + 1) * size = (2 * j + 1) * size + size := Nat.succ_mul (2 * j + 1) size
    omega
  simp only [lane, hdouble, heven, Nat.shiftRight_add]
  rw [two_mul size, pow_add, Nat.mod_mul, ← Nat.shiftRight_eq_div_pow _ size, Nat.add_comm,
    Nat.mul_comm]

/-- Settles O26: the bits by `lane_testBit_eq_getMsbD`, the conventional form as the model
has it. -/
theorem lanesFollowTheManualsLabels : Obligations.LanesFollowTheManualsLabels := by
  intro ww v k hk
  refine ⟨fun j hj => lane_testBit_eq_getMsbD v (Width.lane_end_le hk) hj, ?_, ww.lanes_mul_size⟩
  rw [lane, Nat.shiftRight_eq_div_pow]

/-- Settles O27, by `lane_double`: the odd lane of the pair is one of the register's lanes. -/
theorem doubleLaneIsAPairOfLanes : Obligations.DoubleLaneIsAPairOfLanes := by
  intro ww v j hw hj
  have hodd : 2 * j + 1 < ww.lanes := by
    have := Width.two_mul_half_lanes hw
    omega
  exact ⟨lane_double v (Width.lane_end_le hodd), hodd⟩

end Sys2Proof.Machine
end

/-! What an effect leaves unchanged, the sequential advance, and the fetch where no instruction
stands (10_state.md rules R11 to R15, 20_memory.md rules R26, R27). -/
section

namespace Sys2Proof.Machine

/-! ### The frame of an instruction, read off its effect -/

/-- No effect reaches the program, its length or the parameters (rule R27). -/
theorem Effect.program {i : Instr} {s t : State} (h : Effect i s t) :
    t.imem = s.imem ∧ t.imemWords = s.imemWords ∧ t.cfg = s.cfg := by
  cases h with
  | register rD v s1 h => simp [h.imem, h.imemWords, h.cfg]
  | store imm v s1 h => simp [h.imem, h.imemWords, h.cfg]
  | jump imm s1 h => simp [h.imem, h.imemWords, h.cfg]
  | advance s1 h => simp [h.imem, h.imemWords, h.cfg]

/-- The pc is left at the sequential advance or at the branch's target (rules R14, R15). -/
theorem Effect.pc {i : Instr} {s t : State} (h : Effect i s t) :
    t.pc = s.pc.next s.cfg.pcStep ∨ ∃ imm, i.target = some imm ∧ t.pc = branchTarget imm := by
  cases h with
  | register rD v s1 h => exact .inl (by simp [h.pc, h.cfg])
  | store imm v s1 h => exact .inl (by simp [h.pc, h.cfg])
  | jump imm s1 _ _ ht => exact .inr ⟨imm, ht, s1.branchTo_pc imm⟩
  | advance s1 h => exact .inl (by simp [h.pc, h.cfg])

/-- The data memory stays as it is, or one implemented word of it is stored (rules R20, R24). -/
theorem Effect.data {i : Instr} {s t : State} (h : Effect i s t) :
    t.dmem = s.dmem ∨ ∃ a v, a < s.cfg.dmemWords ∧ t.dmem = (s.storeWord a v).dmem := by
  cases h with
  | register rD v s1 h => exact .inl (by simp [h.dmem])
  | store imm v s1 h _ _ _ hin => exact .inr ⟨_, v, hin, by simp [h.dmem]⟩
  | jump imm s1 h => exact .inl (by simp [h.dmem])
  | advance s1 h => exact .inl (by simp [h.dmem])

/-- No effect changes which registers are hardwired. -/
theorem Effect.hardwired {i : Instr} {s t : State} (h : Effect i s t) (r : RegNum) :
    t.hardwired r = s.hardwired r := by
  obtain ⟨-, -, hcfg⟩ := h.program
  rw [State.hardwired, hcfg, State.hardwired]

/-- The registers after an effect: the destination has some value and is written unless it is
hardwired, every other register is as before (rules R11, R12). -/
theorem Effect.registers {i : Instr} {s t : State} (h : Effect i s t) (r : RegNum) :
    (i.dest = some r ∧ s.hardwired r = false ∧ t.isWritten r = true) ∨
    ((i.dest ≠ some r ∨ s.hardwired r = true) ∧
      t.reg r = s.reg r ∧ t.isWritten r = s.isWritten r) := by
  cases h with
  | register rD v s1 h hd =>
    by_cases hr : r = rD ∧ s.hardwired rD = false
    · obtain ⟨rfl, hw⟩ := hr
      exact .inl ⟨hd, hw, by simp [h.hardwired, hw]⟩
    · refine .inr ⟨?_, by simp [h.hardwired, h.reg, hr], by simp [h.hardwired, h.isWritten, hr]⟩
      by_cases hrD : r = rD
      · subst hrD; exact .inr (by simpa using hr)
      · exact .inl (by simpa [hd, eq_comm] using hrD)
  | store imm v s1 h hd => exact .inr (by simp [hd, h.reg, h.isWritten])
  | jump imm s1 h hd => exact .inr (by simp [hd, h.reg, h.isWritten])
  | advance s1 h hd => exact .inr (by simp [hd, h.reg, h.isWritten])

/-! ### The sequential advance (rule R15) -/

/-- Below 2^32 the advance is the sum. -/
theorem Pc.next_toNat {p : Pc} {step : PcStep} (h : p.toNat + step.toNat < 2 ^ 32) :
    (p.next step).toNat = p.toNat + step.toNat := by
  rw [Pc.next, if_pos h, Pc.toNat, BitVec.toNat_ofNat, Nat.mod_eq_of_lt h]

/-- At 2^32 or more it leaves the pc past every address. -/
theorem Pc.next_eq_past {p : Pc} {step : PcStep} (h : 2 ^ 32 ≤ p.toNat + step.toNat) :
    p.next step = .past := by
  rw [Pc.next, if_neg (Nat.not_lt.mpr h)]

theorem Pc.next_toNat_le (p : Pc) (step : PcStep) : (p.next step).toNat ≤ p.toNat + step.toNat := by
  rcases Nat.lt_or_ge (p.toNat + step.toNat) (2 ^ 32) with h | h
  · exact (Pc.next_toNat h).le
  · rw [Pc.next_eq_past h]; exact h

/-- A branch names the addresses 0 to 65535 (rule R14). -/
@[simp] theorem branchTarget_toNat (imm : Imm16) : (branchTarget imm).toNat = imm.toNat :=
  BitVec.toNat_setWidth_of_le (by decide)

/-! ### Where no instruction stands (rule R26) -/

/-- A step away from END_PC, at no instruction address, faults with the pc's address. -/
theorem step_of_no_instruction {s : State} (hend : s.pc.toNat ≠ s.endPc)
    (h : ¬ (s.pc.toNat < 2 ^ 32 ∧ s.pc.toNat % s.cfg.pcStep.toNat = 0)) :
    step s = .fault (.fetchFault s.pc.toNat) := by
  have hfetch : s.fetch = .noInstruction s.pc.toNat := by
    rw [State.fetch, if_neg hend, if_neg fun ⟨hlt, hmod, _⟩ => h ⟨hlt, hmod⟩]
  simp only [step, hfetch, raise]

/-- END_PC is a multiple of PC_STEP (rule R126). -/
theorem State.endPc_mod_pcStep (s : State) : s.endPc % s.cfg.pcStep.toNat = 0 :=
  Nat.mul_mod_left ..

/-- From a fetched word the sequential advance stays within the image or at its end. -/
theorem State.next_toNat_le_endPc {s : State} {w : InstrWord} (h : s.fetch = .word w) :
    (s.pc.next s.cfg.pcStep).toNat ≤ s.endPc := by
  obtain ⟨-, -, hmod, hin, -⟩ := State.fetch_word h
  calc (s.pc.next s.cfg.pcStep).toNat
      ≤ s.pc.toNat + s.cfg.pcStep.toNat := Pc.next_toNat_le ..
    _ = (s.pc.toNat / s.cfg.pcStep.toNat + 1) * s.cfg.pcStep.toNat := by
      rw [Nat.succ_mul, Nat.div_mul_cancel (Nat.dvd_of_mod_eq_zero hmod)]
    _ ≤ s.endPc := Nat.mul_le_mul_right _ hin

end Sys2Proof.Machine
end

/-! The state invariant: a step keeps it, and reset meets it (10_state.md, 20_memory.md,
70_reset_and_hazards.md). -/
section

namespace Sys2Proof.Machine

/-- The bytes that have a value after a store: those of the word stored, and those that had one. -/
theorem State.storeWord_readByte_isSome (s : State) (a : Nat) (v : Word) (x : Nat) :
    ((s.storeWord a v).dmem.readByte x).isSome = true ↔
      x / 8 = a ∨ (s.dmem.readByte x).isSome = true := by
  rw [State.storeWord_dmem]
  by_cases hx : x / 8 = a
  · obtain ⟨j, hj, rfl⟩ : ∃ j, j < 8 ∧ x = 8 * a + j := ⟨x % 8, by omega, by omega⟩
    simp [Memory.readByte_writeBE _ _ _ _ _ hj, hx]
  · rw [Memory.readByte_writeBE_ne _ _ _ _ _ (by omega)]
    simp [hx]

/-- Storing an implemented word keeps the data in whole implemented words (rules R20, R24). -/
theorem State.dataInWords_storeWord {s : State} (h : s.dataInWords) {a : Nat} (v : Word)
    (ha : a < s.cfg.dmemWords) : (s.storeWord a v).dataInWords := by
  obtain ⟨hwhole, himpl⟩ := h
  refine ⟨fun b j hj => ?_, fun x hx => ?_⟩
  · have hb : (8 * b + j) / 8 = 8 * b / 8 := by omega
    rw [Bool.eq_iff_iff, State.storeWord_readByte_isSome, State.storeWord_readByte_isSome,
      hwhole b j hj, hb]
  · rcases (s.storeWord_readByte_isSome a v x).mp hx with hxa | hx
    · rw [State.storeWord_cfg]; omega
    · exact himpl x hx

/-- The data part of the invariant is kept by every effect: nothing is stored, or one implemented
word. -/
theorem Effect.keeps_data {i : Instr} {s t : State} (h : Effect i s t) (hs : s.Inv) :
    t.dmem.wf ∧ t.dataInWords := by
  obtain ⟨-, -, hcfg⟩ := h.program
  rcases h.data with hd | ⟨a, v, ha, hd⟩
  · rw [State.dataInWords, hd, hcfg]
    exact ⟨hs.dataCanonical, hs.dataWhole⟩
  · rw [State.dataInWords, hd, hcfg]
    exact ⟨State.wf_storeWord hs.dataCanonical a v, State.dataInWords_storeWord hs.dataWhole v ha⟩

/-- The pc stays in reach: an instruction that was fetched advances to the image's end at most, and
a branch names 0 to 65535. -/
theorem Effect.keeps_pcInReach {i : Instr} {s t : State} {w : InstrWord} (h : Effect i s t)
    (hw : s.fetch = .word w) : t.pc.toNat ≤ s.endPc ∨ t.pc.toNat ≤ 65535 := by
  rcases h.pc with hpc | ⟨imm, -, hpc⟩
  · exact .inl (hpc ▸ State.next_toNat_le_endPc hw)
  · have := imm.isLt
    exact .inr (by rw [hpc, branchTarget_toNat]; omega)

/-- Settles O15: a step is an effect of a fetched instruction, and that effect keeps the program,
the data's form and the pc's reach. -/
theorem everyStepKeepsTheInvariant : Obligations.EveryStepKeepsTheInvariant := by
  intro s t hs hstep
  obtain ⟨w, i, hw, -, hexec⟩ := step_cases hstep
  have he := exec_cases hexec
  obtain ⟨himem, hwords, hcfg⟩ := he.program
  obtain ⟨hcanonical, hwhole⟩ := he.keeps_data hs
  have hend : t.endPc = s.endPc := by rw [State.endPc, hwords, hcfg, State.endPc]
  exact {
    parameters := hcfg ▸ hs.parameters
    dataCanonical := hcanonical
    programCanonical := himem ▸ hs.programCanonical
    contiguous := by rw [State.programContiguous, himem, hwords]; exact hs.contiguous
    imageFits := hend ▸ hs.imageFits
    dataWhole := hwhole
    pcInReach := hend ▸ he.keeps_pcInReach hw }

/-- Settles O12, clause by clause from the fields of the reset state; its image is empty, so the pc
is at END_PC. -/
theorem resetState : Obligations.ResetState := by
  refine ⟨rfl, fun r => ⟨?_, ?_⟩, fun a => rfl, rfl, rfl, rfl, rfl⟩
  · simp [State.isWritten, State.reset]
  · simp [State.reg, State.reset]

/-- Settles O13: both memories are empty and the pc is at the end of the empty image. -/
theorem resetMeetsTheInvariant : Obligations.ResetMeetsTheInvariant where
  parameters := by decide
  dataCanonical := State.wf_reset.1
  programCanonical := State.wf_reset.2
  contiguous x := by simp [State.reset, Memory.readByte]
  imageFits := by decide
  dataWhole := ⟨fun a j _ => rfl, fun x hx => by cases hx⟩
  pcInReach := .inl (by decide)

end Sys2Proof.Machine
end

/-! Register reads and writes, the destination of an instruction and its pc (10_state.md rules R11,
R12, R15). -/
section

namespace Sys2Proof.Machine

/-- Register 0 is hardwired exactly under R0_ZERO. -/
theorem State.hardwired_eq_false_iff (s : State) (i : RegNum) :
    s.hardwired i = false ↔ s.cfg.r0Zero = false ∨ i ≠ 0 := by
  rw [State.hardwired, Bool.and_eq_false_iff, beq_eq_false_iff_ne]
  rfl

/-- Settles O20, by the rules for a read and a write of a hardwired and of an ordinary register. -/
theorem registerZeroIsHardwiredUnderR0Zero : Obligations.RegisterZeroIsHardwiredUnderR0Zero := by
  refine ⟨fun s v h => ?_, fun s i v h => ?_⟩
  · have hw : s.hardwired 0 = true := by simp [State.hardwired, h]
    exact ⟨State.readReg_hardwired hw, s.writeReg_outcome_eq_of_hardwired 0 v hw⟩
  · have hw := (s.hardwired_eq_false_iff i).mpr h
    exact ⟨State.readReg_writeReg_same hw, fun r hr => by simp [hr]⟩

/-- Settles O21: a register is hardwired, written, or treated as the parameter says, and a read
follows `State.holds`. -/
theorem registerReads : Obligations.RegisterReads := by
  intro s i
  refine ⟨State.readReg_hardwired, fun hh hw => ?_, fun hh hw => ⟨fun hc => ?_, fun hc => ?_⟩⟩
  · rw [State.readReg_of_holds (by simp [State.holds, hw]), State.value, hh]; rfl
  · exact State.readReg_of_not_holds (by simp [State.holds, hh, hw, hc])
  · rw [State.readReg_of_holds (by simp [State.holds, hc]), State.value, hh]; rfl

/-- Settles O24, by `Effect.registers`. -/
theorem onlyTheDestinationChanges : Obligations.OnlyTheDestinationChanges := by
  intro i s t h
  have hregs := (exec_cases h).registers
  refine ⟨fun r hr => ?_, fun r hr hw => ?_, fun r hw => ?_⟩
  · rcases hregs r with ⟨hd, -, -⟩ | ⟨-, hsame⟩
    · exact absurd hd hr
    · exact hsame
  · rcases hregs r with ⟨-, -, hwritten⟩ | ⟨hnot, -⟩
    · exact hwritten
    · simp [hr, hw] at hnot
  · rcases hregs r with ⟨-, hnot, -⟩ | ⟨-, hreg, -⟩
    · simp [hw] at hnot
    · exact hreg

/-- Settles O58: the pc by `Effect.pc`, the advance by `Pc.next`, and the two fetch faults by
`step_of_no_instruction`, since END_PC is a multiple of PC_STEP. -/
theorem advanceDoesNotWrap : Obligations.AdvanceDoesNotWrap := by
  refine ⟨fun i s t h => (exec_cases h).pc, fun p step => Pc.next_toNat,
    fun p step => Pc.next_eq_past, fun st => ?_, fun s w h => ?_, fun s hpc hend => ?_,
    fun i s t imm h _ hpc hmod => ?_⟩
  · cases st with
    | one => exact .inl rfl
    | four => exact .inr rfl
  · obtain ⟨-, -, hmod, -, -⟩ := State.fetch_word h
    exact hmod
  · have htop : s.pc.toNat = 2 ^ 32 := by rw [hpc]; rfl
    rw [step_of_no_instruction (htop ▸ hend.symm) fun ⟨hlt, _⟩ => absurd htop hlt.ne, htop]
  · obtain ⟨-, -, hcfg⟩ := (exec_cases h).program
    have himm : t.pc.toNat = imm.toNat := by rw [hpc, branchTarget_toNat]
    rw [← hcfg, ← himm] at hmod
    have hend : t.pc.toNat ≠ t.endPc := fun he => hmod (he ▸ t.endPc_mod_pcStep)
    rw [step_of_no_instruction hend fun ⟨_, h0⟩ => hmod h0, himm]

end Sys2Proof.Machine
end

/-! A register that an instruction does not read cannot influence it (10_state.md rule R11). -/
section

namespace Sys2Proof.Machine

/-! ### The operand form of an instruction -/

/-- The operand forms an instruction can have, each with its destination and sources; a term without
an encoding has none. -/
inductive Form (i : Instr) : Prop where
  | oneSource (f : Word → Word) (rD rA : RegNum) (hd : i.dest = some rD) (hs : i.sources = [rA])
      (he : ∀ s, exec i s = oneSourceOp f rD rA s)
  | twoSource (f : Word → Word → Word) (rD rA rB : RegNum) (hd : i.dest = some rD)
      (hs : i.sources = [rA, rB]) (he : ∀ s, exec i s = twoSourceOp f rD rA rB s)
  | branch (cond : Word → Bool) (rD : RegNum) (imm : Imm16) (hd : i.dest = none)
      (hs : i.sources = [rD]) (he : ∀ s, exec i s = branchOp cond rD imm s)
  | load (rD : RegNum) (imm : Imm16) (hi : i = .vld rD imm)
  | store (rD : RegNum) (imm : Imm16) (hi : i = .vsd rD imm)
  | nop (hi : i = .vnop)
  | reserved (hw : i.wellFormed = false)

/-- Every instruction has one of these forms. -/
theorem exec_form (i : Instr) : Form i := by
  cases i with
  | vand ww rD rA rB => exact .twoSource _ rD rA rB rfl rfl (exec_vand ww rD rA rB)
  | vor ww rD rA rB => exact .twoSource _ rD rA rB rfl rfl (exec_vor ww rD rA rB)
  | vxor ww rD rA rB => exact .twoSource _ rD rA rB rfl rfl (exec_vxor ww rD rA rB)
  | vnot ww rD rA => exact .oneSource _ rD rA rfl rfl (exec_vnot ww rD rA)
  | vmov ww rD rA => exact .oneSource _ rD rA rfl rfl (exec_vmov ww rD rA)
  | vadd ww rD rA rB => exact .twoSource _ rD rA rB rfl rfl (exec_vadd ww rD rA rB)
  | vsub ww rD rA rB => exact .twoSource _ rD rA rB rfl rfl (exec_vsub ww rD rA rB)
  | vmuleu ww rD rA rB =>
    cases hw : ww.hasDouble with
    | false => exact .reserved hw
    | true => exact .twoSource _ rD rA rB rfl rfl fun s => exec_vmuleu ww rD rA rB s hw
  | vmulou ww rD rA rB =>
    cases hw : ww.hasDouble with
    | false => exact .reserved hw
    | true => exact .twoSource _ rD rA rB rfl rfl fun s => exec_vmulou ww rD rA rB s hw
  | vsll ww rD rA rB => exact .twoSource _ rD rA rB rfl rfl (exec_vsll ww rD rA rB)
  | vsrl ww rD rA rB => exact .twoSource _ rD rA rB rfl rfl (exec_vsrl ww rD rA rB)
  | vsra ww rD rA rB => exact .twoSource _ rD rA rB rfl rfl (exec_vsra ww rD rA rB)
  | vrtth ww rD rA => exact .oneSource _ rD rA rfl rfl (exec_vrtth ww rD rA)
  | vdivu ww rD rA rB => exact .twoSource _ rD rA rB rfl rfl (exec_vdivu ww rD rA rB)
  | vmodu ww rD rA rB => exact .twoSource _ rD rA rB rfl rfl (exec_vmodu ww rD rA rB)
  | vsqeu ww rD rA =>
    cases hw : ww.hasDouble with
    | false => exact .reserved hw
    | true => exact .oneSource _ rD rA rfl rfl fun s => exec_vsqeu ww rD rA s hw
  | vsqou ww rD rA =>
    cases hw : ww.hasDouble with
    | false => exact .reserved hw
    | true => exact .oneSource _ rD rA rfl rfl fun s => exec_vsqou ww rD rA s hw
  | vsqrtu ww rD rA => exact .oneSource _ rD rA rfl rfl (exec_vsqrtu ww rD rA)
  | vld rD imm => exact .load rD imm rfl
  | vsd rD imm => exact .store rD imm rfl
  | vbeq rD imm => exact .branch _ rD imm rfl rfl (exec_vbeq rD imm)
  | vbneq rD imm => exact .branch _ rD imm rfl rfl (exec_vbneq rD imm)
  | vnop => exact .nop rfl

/-! ### Replacing the value of one register -/

/-- The state with another value in register r, no instruction having written it. -/
def State.withReg (s : State) (r : RegNum) (v : Word) : State :=
  { s with regs := s.regs.set r.toNat v r.isLt }

/-- A write to an ordinary register sets its value and its mark. -/
theorem State.writeReg_of_not_hardwired {s : State} {i : RegNum} (h : s.hardwired i = false)
    (w : Word) : s.writeReg i w =
      { s with regs := s.regs.set i.toNat w i.isLt,
               written := s.written.set i.toNat true i.isLt } := by
  simp [State.writeReg, h]

section WithReg
variable (s : State) (r : RegNum) (v : Word)

@[simp] theorem State.withReg_reg (q : RegNum) :
    (s.withReg r v).reg q = if q = r then v else s.reg q := by
  unfold State.withReg State.reg
  by_cases hq : q = r
  · subst hq; simp
  · have : r.toNat ≠ q.toNat := fun e => hq (BitVec.eq_of_toNat_eq e.symm)
    simp [hq, this]

@[simp] theorem State.withReg_holds (q : RegNum) : (s.withReg r v).holds q = s.holds q := rfl

@[simp] theorem State.withReg_hardwired (q : RegNum) :
    (s.withReg r v).hardwired q = s.hardwired q := rfl

@[simp] theorem State.withReg_value {q : RegNum} (hq : q ≠ r) :
    (s.withReg r v).value q = s.value q := by
  rw [State.value, State.withReg_reg, if_neg hq]; rfl

/-- A read of another register answers the same, and the replaced value stays. -/
theorem State.readReg_withReg {q : RegNum} (hq : q ≠ r) :
    (s.withReg r v).readReg q = ((s.readReg q).1, (s.readReg q).2.withReg r v) := by
  cases hh : s.holds q with
  | false =>
    rw [State.readReg_of_not_holds hh,
      State.readReg_of_not_holds ((s.withReg_holds r v q).trans hh)]
    rfl
  | true =>
    rw [State.readReg_of_holds hh, State.readReg_of_holds ((s.withReg_holds r v q).trans hh),
      s.withReg_value r v hq]

/-- A read of two other registers answers the same, and the replaced value stays. -/
theorem State.readPair_withReg {rA rB : RegNum} (hA : rA ≠ r) (hB : rB ≠ r) :
    (s.withReg r v).readPair rA rB =
      ((s.readPair rA rB).1, (s.readPair rA rB).2.1, (s.readPair rA rB).2.2.withReg r v) := by
  simp only [State.readPair, State.readReg_withReg _ _ _ hA, State.readReg_withReg _ _ _ hB]

/-- `x[rD] <- w` after the replacement: the replaced value stays unless it is overwritten. -/
theorem State.writeReg_withReg (rD : RegNum) (w : Word) :
    (s.withReg r v).writeReg rD w =
      if rD = r ∧ s.hardwired r = false then s.writeReg rD w
      else (s.writeReg rD w).withReg r v := by
  cases hw : s.hardwired rD with
  | true =>
    have hnot : ¬ (rD = r ∧ s.hardwired r = false) := by rintro ⟨rfl, h⟩; simp [hw] at h
    rw [if_neg hnot, State.writeReg_outcome_eq_of_hardwired _ _ _ hw,
      State.writeReg_outcome_eq_of_hardwired _ _ _ (by simpa using hw)]
  | false =>
    rw [State.writeReg_of_not_hardwired hw,
      State.writeReg_of_not_hardwired (by simpa using hw : (s.withReg r v).hardwired rD = false)]
    by_cases hr : rD = r
    · subst hr
      simp [State.withReg, hw]
    · have hne : r.toNat ≠ rD.toNat := fun e => hr (BitVec.eq_of_toNat_eq e.symm)
      simp [State.withReg, hr, Vector.set_comm _ _ hne]

end WithReg

/-! ### Each operand form after the replacement -/

section Forms
variable {s t : State} (r : RegNum) (v : Word)

/-- A load answers the same, and the replaced value stays. -/
theorem State.loadData_withReg {s1 : State} {ea : BitVec 32} {w : Word}
    (h : s.loadData ea = .ok (w, s1)) : (s.withReg r v).loadData ea = .ok (w, s1.withReg r v) := by
  have hword : (s.withReg r v).dataWord ea.toNat = s.dataWord ea.toNat := rfl
  rw [State.loadData] at h ⊢
  rw [hword]
  cases hd : s.dataWord ea.toNat with
  | some u => rw [hd] at h; cases h; rfl
  | none =>
    have hcfg : (s.withReg r v).cfg = s.cfg := rfl
    rw [hd] at h
    rw [hcfg]
    cases hu : s.cfg.unwrittenData with
    | draw => simp only [hu] at h; cases h; rfl
    | fault => simp [hu] at h

/-- Giving the destination its value and advancing, after reads that changed the draw counter at
most. -/
theorem State.writeReg_advance_withReg {s1 : State} (h : s.SameButDraws s1) (rD : RegNum)
    (w : Word) :
    ((s1.withReg r v).writeReg rD w).advance =
      if rD = r ∧ s.hardwired r = false then (s1.writeReg rD w).advance
      else (s1.writeReg rD w).advance.withReg r v := by
  rw [State.writeReg_withReg, h.hardwired]
  split <;> rfl

theorem oneSourceOp_withReg {f : Word → Word} {rD rA : RegNum} (hA : rA ≠ r)
    (h : oneSourceOp f rD rA s = .next t) :
    oneSourceOp f rD rA (s.withReg r v) =
      .next (if rD = r ∧ s.hardwired r = false then t else t.withReg r v) := by
  obtain ⟨a, s1, hread, rfl⟩ := oneSourceOp_next h
  rw [← State.writeReg_advance_withReg r v (State.sameButDraws_of_readReg hread)]
  simp only [oneSourceOp, State.readReg_withReg s r v hA, hread]

theorem twoSourceOp_withReg {f : Word → Word → Word} {rD rA rB : RegNum} (hA : rA ≠ r)
    (hB : rB ≠ r) (h : twoSourceOp f rD rA rB s = .next t) :
    twoSourceOp f rD rA rB (s.withReg r v) =
      .next (if rD = r ∧ s.hardwired r = false then t else t.withReg r v) := by
  obtain ⟨a, b, s1, hread, rfl⟩ := twoSourceOp_next h
  rw [← State.writeReg_advance_withReg r v (State.sameButDraws_of_readPair hread)]
  simp only [twoSourceOp, State.readPair_withReg s r v hA hB, hread]

theorem branchOp_withReg {cond : Word → Bool} {rD : RegNum} {imm : Imm16} (hD : rD ≠ r)
    (h : branchOp cond rD imm s = .next t) :
    branchOp cond rD imm (s.withReg r v) = .next (t.withReg r v) := by
  obtain ⟨a, s1, hread, rfl⟩ := branchOp_next h
  simp only [branchOp, State.readReg_withReg s r v hD, hread]
  split <;> rfl

theorem execVld_withReg {rD : RegNum} {imm : Imm16} (h : execVld rD imm s = .next t) :
    execVld rD imm (s.withReg r v) =
      .next (if rD = r ∧ s.hardwired r = false then t else t.withReg r v) := by
  obtain ⟨w, s1, hload, hin, rfl⟩ := execVld_next h
  have hin' : (s.withReg r v).outsideData (effectiveAddress imm) = false := hin
  rw [← State.writeReg_advance_withReg r v (State.sameButDraws_of_loadData hload)]
  simp [execVld, State.loadData_withReg r v hload, hin']

theorem execVsd_withReg {rD : RegNum} {imm : Imm16} (hD : rD ≠ r)
    (h : execVsd rD imm s = .next t) :
    execVsd rD imm (s.withReg r v) = .next (t.withReg r v) := by
  obtain ⟨w, s1, hread, hin, rfl⟩ := execVsd_next h
  have hin' : (s1.withReg r v).outsideData (effectiveAddress imm) = false := by
    have hcfg : (s1.withReg r v).cfg = s.cfg := (State.sameButDraws_of_readReg hread).cfg
    rw [State.outsideData, hcfg]
    exact decide_eq_false hin.not_ge
  simp only [execVsd, State.readReg_withReg s r v hD, hread, hin']
  rfl

/-- An instruction that does not read register r does the same after r's value was replaced, and the
replaced value stays unless the instruction overwrites it. -/
theorem exec_withReg {i : Instr} (hr : r ∉ i.sources) (h : exec i s = .next t) :
    exec i (s.withReg r v) =
      .next (if i.dest = some r ∧ s.hardwired r = false then t else t.withReg r v) := by
  cases exec_form i with
  | oneSource f rD rA hd hs he =>
    have hA : rA ≠ r := by rintro rfl; simp [hs] at hr
    simp only [he, hd, Option.some.injEq] at h ⊢
    exact oneSourceOp_withReg r v hA h
  | twoSource f rD rA rB hd hs he =>
    have hA : rA ≠ r := by rintro rfl; simp [hs] at hr
    have hB : rB ≠ r := by rintro rfl; simp [hs] at hr
    simp only [he, hd, Option.some.injEq] at h ⊢
    exact twoSourceOp_withReg r v hA hB h
  | branch cond rD imm hd hs he =>
    have hD : rD ≠ r := by rintro rfl; simp [hs] at hr
    have hnot : ¬ (i.dest = some r ∧ s.hardwired r = false) := by simp [hd]
    rw [he] at h
    rw [he, if_neg hnot, branchOp_withReg r v hD h]
  | load rD imm hi =>
    subst hi
    simp only [Instr.dest, Option.some.injEq]
    exact execVld_withReg r v h
  | store rD imm hi =>
    subst hi
    have hD : rD ≠ r := by rintro rfl; simp [Instr.sources] at hr
    exact execVsd_withReg r v hD h
  | nop hi => subst hi; cases h; rfl
  | reserved hw => rw [exec_of_not_wellFormed hw] at h; cases h

end Forms

/-- Settles O25, by `exec_withReg`: the two outcomes are the same, or differ in the value of r
alone. -/
theorem unreadRegistersDoNotMatter : Obligations.UnreadRegistersDoNotMatter := by
  intro i s t r v hr h
  refine ⟨_, exec_withReg r v hr h, ?_⟩
  by_cases hover : i.dest = some r ∧ s.hardwired r = false
  · rw [if_pos hover]
    exact ⟨fun _ _ => rfl, fun hnot => absurd hover hnot, rfl, rfl, rfl, rfl, rfl, rfl, rfl⟩
  · rw [if_neg hover]
    refine ⟨fun q hq => ?_, fun _ => by simp, rfl, rfl, rfl, rfl, rfl, rfl, rfl⟩
    rw [State.withReg_reg, if_neg (hq.resolve_right hover)]

end Sys2Proof.Machine
end

/-! The data memory under loads and stores: the effective address, what vld and vsd do, and what an
effect leaves of the data memory (20_memory.md rules R20 to R31, 44_load_store.md). -/
section

namespace Sys2Proof.Machine

/-! ### The effective address (rule R23) -/

@[simp] theorem effectiveAddress_toNat (imm : Imm16) : (effectiveAddress imm).toNat = imm.toNat :=
  BitVec.toNat_setWidth_of_le (by decide)

/-- Settles O49: zero extension keeps the value, which is below 2^16, and every value below 2^16 is
some immediate's. -/
theorem effectiveAddressIsZeroExtended : Obligations.EffectiveAddressIsZeroExtended := by
  refine ⟨fun imm => ⟨?_, effectiveAddress_toNat imm, ?_⟩, fun a ha => ⟨BitVec.ofNat 16 a, ?_⟩⟩
  · exact BitVec.setWidth_eq_append (by decide)
  · have := imm.isLt
    rw [effectiveAddress_toNat]
    omega
  · rw [effectiveAddress_toNat, BitVec.toNat_ofNat]
    omega

/-! ### What vld and vsd do, case by case (rules R24, R82, R83, R114) -/

section LoadStore
variable (rD : RegNum) {imm : Imm16} {s : State}

theorem State.outsideData_eq_true (h : s.cfg.dmemWords ≤ imm.toNat) :
    s.outsideData (effectiveAddress imm) = true := by
  rw [State.outsideData, effectiveAddress_toNat, decide_eq_true h]

theorem State.outsideData_eq_false (h : imm.toNat < s.cfg.dmemWords) :
    s.outsideData (effectiveAddress imm) = false := by
  rw [State.outsideData, effectiveAddress_toNat, decide_eq_false h.not_ge]

theorem exec_vld_of_outside (h : s.cfg.dmemWords ≤ imm.toNat) :
    exec (.vld rD imm) s = .fault (.dataAccessFault (effectiveAddress imm)) := by
  simp [exec, execVld, State.outsideData_eq_true h, raise]

theorem exec_vld_of_dataWord {v : Word} (hin : imm.toNat < s.cfg.dmemWords)
    (h : s.dataWord imm.toNat = some v) :
    exec (.vld rD imm) s = .next (s.writeReg rD v).advance := by
  simp [exec, execVld, State.outsideData_eq_false hin, State.loadData, h]

theorem exec_vld_of_draw (hin : imm.toNat < s.cfg.dmemWords) (h : s.dataWord imm.toNat = none)
    (hu : s.cfg.unwrittenData = .draw) :
    exec (.vld rD imm) s = .next (s.draw.2.writeReg rD s.draw.1).advance := by
  simp [exec, execVld, State.outsideData_eq_false hin, State.loadData, h, hu]

theorem exec_vld_of_no_value (hin : imm.toNat < s.cfg.dmemWords) (h : s.dataWord imm.toNat = none)
    (hu : s.cfg.unwrittenData = .fault) :
    exec (.vld rD imm) s = .fault (.dataAccessFault (effectiveAddress imm)) := by
  simp [exec, execVld, State.outsideData_eq_false hin, State.loadData, h, hu, raise]

theorem exec_vsd_of_outside (h : s.cfg.dmemWords ≤ imm.toNat) :
    exec (.vsd rD imm) s = .fault (.dataAccessFault (effectiveAddress imm)) := by
  obtain ⟨v, s1, hread⟩ : ∃ v s1, s.readReg rD = (v, s1) := ⟨_, _, rfl⟩
  have hcfg := (State.sameButDraws_of_readReg hread).cfg
  simp [exec, execVsd, hread, State.outsideData_eq_true (hcfg ▸ h), raise]

theorem exec_vsd_of_inside {s1 : State} {v : Word} (hin : imm.toNat < s.cfg.dmemWords)
    (hread : s.readReg rD = (v, s1)) :
    exec (.vsd rD imm) s = .next (s1.storeWord imm.toNat v).advance := by
  have hcfg := (State.sameButDraws_of_readReg hread).cfg
  simp [exec, execVsd, hread, State.outsideData_eq_false (hcfg ▸ hin)]

end LoadStore

/-! ### What an effect leaves of the data memory (rules R20, R83, R84) -/

/-- The data memory after an effect: as it was, or with one word stored at the store address. -/
theorem Effect.dmem {i : Instr} {s t : State} (h : Effect i s t) :
    (i.storeAddress = none ∧ t.dmem = s.dmem) ∨
    ∃ imm v, i.storeAddress = some imm ∧ t.dmem = (s.storeWord imm.toNat v).dmem := by
  cases h with
  | register rD v s1 h _ _ hs => exact .inl ⟨hs, by simp [h.dmem]⟩
  | store imm v s1 h _ _ hs => exact .inr ⟨imm, v, hs, by simp [h.dmem]⟩
  | jump imm s1 h _ _ hs => exact .inl ⟨hs, by simp [h.dmem]⟩
  | advance s1 h _ hs => exact .inl ⟨hs, by simp [h.dmem]⟩

theorem State.dataWord_congr {s t : State} (h : t.dmem = s.dmem) (a : Nat) :
    t.dataWord a = s.dataWord a := by
  rw [State.dataWord, h, State.dataWord]

/-- An instruction that does not store to an index leaves its word. -/
theorem Effect.dataWord {i : Instr} {s t : State} (h : Effect i s t) {a : Imm16}
    (ha : i.storeAddress ≠ some a) : t.dataWord a.toNat = s.dataWord a.toNat := by
  rcases h.dmem with ⟨-, hd⟩ | ⟨imm, v, hs, hd⟩
  · exact State.dataWord_congr hd _
  · have hne : a.toNat ≠ imm.toNat := fun e => ha (hs.trans (by rw [BitVec.eq_of_toNat_eq e]))
    rw [State.dataWord_congr hd, State.dataWord_storeWord, if_neg hne]

/-- A vsd completes in an implemented word only, and leaves the value it read there. -/
theorem exec_vsd_next {r : RegNum} {imm : Imm16} {s s1 t : State} {v : Word}
    (hread : s.readReg r = (v, s1)) (h : exec (.vsd r imm) s = .next t) :
    imm.toNat < s.cfg.dmemWords ∧ t.dataWord imm.toNat = some v := by
  obtain ⟨v', s1', hread', hin, rfl⟩ := execVsd_next h
  obtain ⟨rfl, rfl⟩ := Prod.mk.inj (hread.symm.trans hread')
  rw [effectiveAddress_toNat] at hin ⊢
  refine ⟨hin, ?_⟩
  rw [State.dataWord_congr (State.advance_dmem _), State.dataWord_storeWord, if_pos rfl]

/-- Settles O52: the stored word is still there after the instruction between, by `Effect.dataWord`,
and a word that has a value is loaded. -/
theorem loadReturnsTheLatestStore : Obligations.LoadReturnsTheLatestStore := by
  refine ⟨fun r q imm i s s1 t u v hread hstore hexec hi => ?_,
    fun r imm imm' s t h hne => (exec_cases h).dataWord fun e => hne (Option.some.inj e).symm⟩
  obtain ⟨hin, hstored⟩ := exec_vsd_next hread hstore
  obtain ⟨-, -, hcfg⟩ := (exec_cases hstore).program
  obtain ⟨-, -, hcfg'⟩ := (exec_cases hexec).program
  have hkept : u.dataWord imm.toNat = some v := ((exec_cases hexec).dataWord hi).trans hstored
  have hin' : imm.toNat < u.cfg.dmemWords := by rwa [hcfg', hcfg]
  exact ⟨_, exec_vld_of_dataWord q hin' hkept, fun hw => by simp [hw]⟩

/-! ### Replacing the data memory -/

/-- The state with another data memory. -/
def State.withDmem (s : State) (m : Memory) : State := { s with dmem := m }

section WithDmem
variable (m : Memory)

/-- A register read answers the same, and the replaced memory stays. -/
theorem State.readReg_withDmem (s : State) (q : RegNum) :
    (s.withDmem m).readReg q = ((s.readReg q).1, (s.readReg q).2.withDmem m) := by
  have hholds : (s.withDmem m).holds q = s.holds q := rfl
  cases hh : s.holds q with
  | false => rw [State.readReg_of_not_holds hh, State.readReg_of_not_holds (hholds.trans hh)]; rfl
  | true => rw [State.readReg_of_holds hh, State.readReg_of_holds (hholds.trans hh)]; rfl

theorem State.readPair_withDmem (s : State) (rA rB : RegNum) :
    (s.withDmem m).readPair rA rB =
      ((s.readPair rA rB).1, (s.readPair rA rB).2.1, (s.readPair rA rB).2.2.withDmem m) := by
  simp only [State.readPair, State.readReg_withDmem]

theorem State.writeReg_withDmem (s : State) (rD : RegNum) (v : Word) :
    (s.withDmem m).writeReg rD v = (s.writeReg rD v).withDmem m := by
  have hhard : (s.withDmem m).hardwired rD = s.hardwired rD := rfl
  simp only [State.writeReg, hhard]
  split <;> rfl

/-- An instruction that is no load and no store does the same whatever the data memory holds, and
leaves it (rule R84). -/
theorem exec_withDmem {i : Instr} {s t : State} (hi : i.dataAddress = none)
    (h : exec i s = .next t) : exec i (s.withDmem m) = .next (t.withDmem m) := by
  cases exec_form i with
  | oneSource f rD rA _ _ he =>
    rw [he] at h ⊢
    obtain ⟨a, s1, hread, rfl⟩ := oneSourceOp_next h
    simp only [oneSourceOp, State.readReg_withDmem, hread, State.writeReg_withDmem]
    rfl
  | twoSource f rD rA rB _ _ he =>
    rw [he] at h ⊢
    obtain ⟨a, b, s1, hread, rfl⟩ := twoSourceOp_next h
    simp only [twoSourceOp, State.readPair_withDmem, hread, State.writeReg_withDmem]
    rfl
  | branch cond rD imm _ _ he =>
    rw [he] at h ⊢
    obtain ⟨v, s1, hread, rfl⟩ := branchOp_next h
    simp only [branchOp, State.readReg_withDmem, hread]
    split <;> rfl
  | load rD imm hld => subst hld; cases hi
  | store rD imm hsd => subst hsd; cases hi
  | nop hnop => subst hnop; cases h; rfl
  | reserved hw => rw [exec_of_not_wellFormed hw] at h; cases h

end WithDmem

/-- Settles O53: the frame by `Effect.dmem`, the independence by `exec_withDmem`. -/
theorem onlyLoadAndStoreReachData : Obligations.OnlyLoadAndStoreReachData := by
  refine ⟨fun i s t h hs x => ?_, fun i s t imm h hs x hx => ?_,
    fun i s t m h hi => exec_withDmem m hi h⟩
  · rcases (exec_cases h).dmem with ⟨-, hd⟩ | ⟨imm, v, hs', -⟩
    · rw [hd]
    · simp [hs] at hs'
  · rcases (exec_cases h).dmem with ⟨hs', -⟩ | ⟨imm', v, hs', hd⟩
    · simp [hs] at hs'
    · obtain rfl : imm = imm' := Option.some.inj (hs.symm.trans hs')
      rw [effectiveAddress_toNat] at hx
      rw [hd, State.storeWord_dmem, Memory.readByte_writeBE_ne _ _ _ _ _ hx]

end Sys2Proof.Machine
end

/-! What stops an instruction and a step (30_encoding.md rule R50, 60_exceptions.md rules R100 to
R114). -/
section

namespace Sys2Proof

/-! ### What the decoder accepts has an encoding (rule R50) -/

theorem Width.hasDouble_ofBits {b : BitVec 2} (h : b ≠ 0b11#2) :
    (Width.ofBits b).hasDouble = true := by
  revert b; decide

section Decoded
variable {w : InstrWord} {i j : Instr}

theorem wellFormed_of_threeOperand (h : threeOperand w j = .ok i) (hj : j.wellFormed = true) :
    i.wellFormed = true := by
  unfold threeOperand at h
  split at h <;> cases h
  exact hj

theorem wellFormed_of_oneSource (h : oneSource w j = .ok i) (hj : j.wellFormed = true) :
    i.wellFormed = true := by
  unfold oneSource at h
  split at h <;> cases h
  exact hj

theorem wellFormed_of_mType (h : mType w j = .ok i) (hj : j.wellFormed = true) :
    i.wellFormed = true := by
  unfold mType at h
  split at h <;> cases h
  exact hj

/-- A double-width instruction is accepted only with a width it has. -/
theorem of_notDouble {r : Except DecodeError Instr} (h : notDouble w r = .ok i) :
    (Width.ofBits (fieldWW w)).hasDouble = true ∧ r = .ok i := by
  unfold notDouble at h
  split at h
  · cases h
  · next hww => exact ⟨Width.hasDouble_ofBits hww, h⟩

/-- Case h_n is function code n (rule R39): the one-source ones, those of double width, the unassigned
codes, and then the other three-operand ones. -/
theorem wellFormed_of_decodeRType (h : decodeRType w = .ok i) : i.wellFormed = true := by
  unfold decodeRType at h
  split at h
  case h_4 | h_5 | h_13 | h_18 => exact wellFormed_of_oneSource h rfl
  case h_8 | h_9 =>
    obtain ⟨hww, h⟩ := of_notDouble h
    exact wellFormed_of_threeOperand h hww
  case h_16 | h_17 =>
    obtain ⟨hww, h⟩ := of_notDouble h
    exact wellFormed_of_oneSource h hww
  case h_19 => cases h
  all_goals exact wellFormed_of_threeOperand h rfl

/-- Every instruction the decoder answers has an encoding: the R-type, vnop and unassigned opcodes are
cases h_5 to h_7, the M-type ones the others (rule R46). -/
theorem wellFormed_of_decode (h : decode w = .ok i) : i.wellFormed = true := by
  unfold decode at h
  split at h
  case h_5 => exact wellFormed_of_decodeRType h
  case h_6 => split at h <;> cases h; rfl
  case h_7 => cases h
  all_goals exact wellFormed_of_mType h rfl

end Decoded

/-- The instructions with a data address are vld and vsd (rule R84). -/
theorem Instr.dataAddress_eq_some {i : Instr} {imm : Imm16} (h : i.dataAddress = some imm) :
    ∃ rD, i = .vld rD imm ∨ i = .vsd rD imm := by
  cases i with
  | vld rD a => cases h; exact ⟨rD, .inl rfl⟩
  | vsd rD a => cases h; exact ⟨rD, .inr rfl⟩
  | _ => cases h

end Sys2Proof

namespace Sys2Proof.Machine

/-- Executing i in s stops in f: an ill-formed term in its own word, a data address outside the
memory or, for a load, a word without a value under the treatment `fault` (rules R24, R50, R114). -/
def Stops (i : Instr) (s : State) (f : Fault) : Prop :=
  (i.wellFormed = false ∧ f = .illegalInstruction (encode i)) ∨
  (∃ imm, i.dataAddress = some imm ∧ f = .dataAccessFault (effectiveAddress imm) ∧
    (s.cfg.dmemWords ≤ imm.toNat ∨
      (i.storeAddress = none ∧ s.dataWord imm.toNat = none ∧ s.cfg.unwrittenData = .fault)))

theorem exec_of_stops {i : Instr} {s : State} {f : Fault} (h : Stops i s f) :
    exec i s = .fault f := by
  obtain ⟨hw, rfl⟩ | ⟨imm, hd, rfl, hstop⟩ := h
  · exact exec_of_not_wellFormed hw s
  · obtain ⟨rD, rfl | rfl⟩ := Instr.dataAddress_eq_some hd
    · rcases Nat.lt_or_ge imm.toNat s.cfg.dmemWords with hin | hout
      · obtain ⟨-, hnone, hu⟩ := hstop.resolve_left hin.not_ge
        exact exec_vld_of_no_value rD hin hnone hu
      · exact exec_vld_of_outside rD hout
    · rcases hstop with hout | ⟨hs, -⟩
      · exact exec_vsd_of_outside rD hout
      · cases hs

/-- Every instruction completes or stops in one of those faults. -/
theorem exec_next_or_stops (i : Instr) (s : State) :
    (∃ t, exec i s = .next t) ∨ ∃ f, exec i s = .fault f ∧ Stops i s f := by
  suffices h : (∃ t, exec i s = .next t) ∨ ∃ f, Stops i s f from
    h.imp id fun ⟨f, hf⟩ => ⟨f, exec_of_stops hf, hf⟩
  cases exec_form i with
  | oneSource f rD rA _ _ he => exact .inl ⟨_, he s⟩
  | twoSource f rD rA rB _ _ he => exact .inl ⟨_, he s⟩
  | branch cond rD imm _ _ he => exact .inl ⟨_, he s⟩
  | load rD imm hi =>
    subst hi
    rcases Nat.lt_or_ge imm.toNat s.cfg.dmemWords with hin | hout
    · cases hd : s.dataWord imm.toNat with
      | some v => exact .inl ⟨_, exec_vld_of_dataWord rD hin hd⟩
      | none =>
        cases hu : s.cfg.unwrittenData with
        | draw => exact .inl ⟨_, exec_vld_of_draw rD hin hd hu⟩
        | fault => exact .inr ⟨_, .inr ⟨imm, rfl, rfl, .inr ⟨rfl, hd, hu⟩⟩⟩
    · exact .inr ⟨_, .inr ⟨imm, rfl, rfl, .inl hout⟩⟩
  | store rD imm hi =>
    subst hi
    rcases Nat.lt_or_ge imm.toNat s.cfg.dmemWords with hin | hout
    · exact .inl ⟨_, exec_vsd_of_inside rD hin rfl⟩
    · exact .inr ⟨_, .inr ⟨imm, rfl, rfl, .inl hout⟩⟩
  | nop hi => subst hi; exact .inl ⟨_, exec_vnop s⟩
  | reserved hw => exact .inr ⟨_, .inl ⟨hw, rfl⟩⟩

theorem exec_eq_fault_iff {i : Instr} {s : State} {f : Fault} :
    exec i s = .fault f ↔ Stops i s f := by
  refine ⟨fun h => ?_, exec_of_stops⟩
  rcases exec_next_or_stops i s with ⟨t, ht⟩ | ⟨g, hg, hstops⟩
  · cases ht.symm.trans h
  · cases hg.symm.trans h
    exact hstops

theorem exec_ne_refused (i : Instr) (s : State) (r : Refusal) : exec i s ≠ .refused r := by
  rcases exec_next_or_stops i s with ⟨t, ht⟩ | ⟨f, hf, -⟩
  · rw [ht]; nofun
  · rw [hf]; nofun

/-- A step that faults has found no instruction, a reserved word, or an instruction that faults. -/
theorem step_fault_cases {s : State} {f : Fault} (h : step s = .fault f) :
    (∃ a, s.fetch = .noInstruction a ∧ f = .fetchFault a) ∨
    ∃ w, s.fetch = .word w ∧
      (f = .illegalInstruction w ∨ ∃ i, decode w = .ok i ∧ exec i s = .fault f) := by
  unfold step at h
  split at h
  · next w hw =>
    refine .inr ⟨w, hw, ?_⟩
    unfold runWord at h
    split at h
    · next i hd => exact .inr ⟨i, hd, h⟩
    · cases h; exact .inl rfl
  · cases h
  · next a ha => cases h; exact .inl ⟨a, ha, rfl⟩

/-- Settles O22: what `exec` can stop in is `Stops`, and a decoded instruction is no ill-formed
term, so its fault is at its data address. -/
theorem onlyTheNamedFaultsStop : Obligations.OnlyTheNamedFaultsStop := by
  refine ⟨fun i s f => exec_eq_fault_iff, exec_ne_refused, fun s f h => ?_⟩
  rcases step_fault_cases h with hfetch | ⟨w, hw, hillegal | ⟨i, hd, hexec⟩⟩
  · exact .inl hfetch
  · exact .inr ⟨w, hw, .inl hillegal⟩
  · rcases exec_eq_fault_iff.mp hexec with ⟨hnot, -⟩ | ⟨imm, haddr, hf, -⟩
    · simp [wellFormed_of_decode hd] at hnot
    · exact .inr ⟨w, hw, .inr ⟨i, imm, hd, haddr, hf⟩⟩

end Sys2Proof.Machine
end

/-! The fetch, the constant program and the byte order of the images (20_memory.md rules R26, R27,
R29). -/
section

namespace Sys2Proof.Machine

/-! ### Where a fetch answers a word (rule R26) -/

/-- At an instruction address inside the image a fetch answers the word the image supplies. -/
theorem State.fetch_eq_word {s : State} {w : InstrWord} (hend : s.pc.toNat ≠ s.endPc)
    (hlt : s.pc.toNat < 2 ^ 32) (hmod : s.pc.toNat % s.cfg.pcStep.toNat = 0)
    (hin : s.pc.toNat / s.cfg.pcStep.toNat < s.imemWords)
    (hw : s.instrWord (s.pc.toNat / s.cfg.pcStep.toNat) = some w) : s.fetch = .word w := by
  rw [State.fetch, if_neg hend, if_pos ⟨hlt, hmod, hin⟩]
  simp only [hw]

/-- A step away from END_PC that fetches no word faults with the pc's address. -/
theorem step_of_no_word {s : State} (hend : s.pc.toNat ≠ s.endPc) (h : ∀ w, s.fetch ≠ .word w) :
    step s = .fault (.fetchFault s.pc.toNat) := by
  have hfetch : s.fetch = .noInstruction s.pc.toNat := by
    rw [State.fetch, if_neg hend]
    split
    · next hc =>
      obtain ⟨hlt, hmod, hin⟩ := hc
      split
      · next w hw => exact absurd (State.fetch_eq_word hend hlt hmod hin hw) (h w)
      · rfl
    · rfl
  simp only [step, hfetch, raise]

theorem step_at_endPc {s : State} (h : s.pc.toNat = s.endPc) : step s = .refused .runEnded := by
  have hfetch : s.fetch = .endOfRun := by rw [State.fetch, if_pos h]
  simp only [step, hfetch]

/-- Settles O9: `State.fetch_eq_word` where the image supplies a word, and its converse
`State.fetch_word` where it does not. -/
theorem fetchIsDefinedInsideTheImage : Obligations.FetchIsDefinedInsideTheImage := by
  refine ⟨fun s a hpc hend => ?_, fun s hpc hend => ?_, fun s => step_at_endPc, fun imm => ?_⟩
  · have ha : s.pc.toNat = a.toNat := by rw [hpc]; rfl
    rw [← ha] at hend ⊢
    refine ⟨fun w hmod hin hw => State.fetch_eq_word hend (ha ▸ a.isLt) hmod hin hw, fun hno => ?_⟩
    refine step_of_no_word hend fun w hword => ?_
    obtain ⟨-, -, hmod, hin, hw⟩ := State.fetch_word hword
    rcases hno with hmod' | hout | hnone
    · exact hmod' hmod
    · exact hin.not_ge hout
    · simp [hnone] at hw
  · have htop : s.pc.toNat = 2 ^ 32 := by rw [hpc]; rfl
    rw [step_of_no_instruction (htop ▸ hend.symm) fun ⟨hlt, _⟩ => absurd htop hlt.ne, htop]
  · exact ⟨branchTarget_toNat imm, Nat.le_of_lt_succ imm.isLt⟩

/-! ### The program is constant (rule R27) -/

/-- A run of k steps leaves the program, its length and the parameters: each step is an effect. -/
theorem run_keeps_program (k : Nat) {s t : State} (h : core.run k s = .next t) :
    t.imem = s.imem ∧ t.imemWords = s.imemWords ∧ t.cfg = s.cfg := by
  induction k generalizing s with
  | zero => cases h; exact ⟨rfl, rfl, rfl⟩
  | succ k ih =>
    obtain ⟨u, hstep, hrun⟩ := run_succ_next core k s t h
    obtain ⟨w, i, -, -, hexec⟩ := step_cases hstep
    obtain ⟨himem, hwords, hcfg⟩ := (exec_cases hexec).program
    obtain ⟨himem', hwords', hcfg'⟩ := ih hrun
    exact ⟨himem'.trans himem, hwords'.trans hwords, hcfg'.trans hcfg⟩

/-- Settles O16, by `Effect.program`; a fetch does not look at the data memory. -/
theorem nothingWritesTheProgram : Obligations.NothingWritesTheProgram :=
  ⟨fun _ _ _ h => (exec_cases h).program, fun k _ _ h => run_keeps_program k h, fun _ _ _ => rfl⟩

/-! ### The byte order of the images (rule R29) -/

/-- Settles O19, by the laws of a byte after a store and of a byte of a placed image. -/
theorem imagesAreBigEndian : Obligations.ImagesAreBigEndian := by
  refine ⟨fun s a j v hj => ?_, fun s ws k j hj => ?_⟩
  · have hpow : 256 ^ (8 - 1 - j) = 2 ^ (56 - 8 * j) := by
      rw [show (256 : Nat) = 2 ^ 8 from rfl, ← pow_mul, Nat.mul_sub]
    rw [State.storeWord_dmem, Memory.readByte_writeBE _ _ _ _ _ hj, hpow,
      ← Nat.shiftRight_eq_div_pow, BitVec.extractLsb']
  · rw [State.loadProgram_imem, ← readByte_programBytes ws 0 k j hj, Nat.zero_add]

end Sys2Proof.Machine
end

/-! Instruction words and instructions are one: each layout is decoded back, and a decoded word is
laid out again as it was (30_encoding.md rules R36 to R46). -/
section

namespace Sys2Proof

/-! ### Decoding the word of a layout -/

section Layouts
variable (rD rA rB : RegNum) (ww : Width) (f : BitVec 6) (i : Instr)

theorem decode_rWord : decode (rWord rD rA rB ww f) = decodeRType (rWord rD rA rB ww f) := by
  simp [decode]

@[simp] theorem threeOperand_rWord : threeOperand (rWord rD rA rB ww f) i = .ok i := by
  simp [threeOperand]

@[simp] theorem oneSource_rWord : oneSource (rWord rD rA 0#5 ww f) i = .ok i := by
  simp [oneSource]

@[simp] theorem mType_mWord (op : BitVec 6) (imm : Imm16) : mType (mWord op rD imm) i = .ok i := by
  simp [mType]

theorem notDouble_rWord {ww : Width} (h : ww.hasDouble = true) (r : Except DecodeError Instr) :
    notDouble (rWord rD rA rB ww f) r = r := by
  simp [notDouble, Laws.MatchesRow.bits_ne_of_hasDouble ww h]

end Layouts

/-- Settles O1, constructor by constructor: the fields of a layout are read back, and its code
selects the constructor. -/
theorem decodeOfEncodeIsTheInstruction : Obligations.DecodeOfEncodeIsTheInstruction := by
  intro i hi
  cases i with
  | vmuleu | vmulou | vsqeu | vsqou =>
    rw [encode, decode_rWord]
    simp [decodeRType, notDouble_rWord _ _ _ _ hi]
  | vld | vsd | vbeq | vbneq => simp [encode, decode]
  | vnop => rfl
  | _ =>
    rw [encode, decode_rWord]
    simp [decodeRType]

/-! ### The word an instruction was decoded from -/

section Decoded
variable {w : InstrWord} {i j : Instr}

theorem of_threeOperand (h : threeOperand w j = .ok i) : fieldZero w = 0#3 ∧ j = i := by
  unfold threeOperand at h
  split at h <;> cases h
  exact ⟨‹_›, rfl⟩

theorem of_oneSource (h : oneSource w j = .ok i) :
    fieldZero w = 0#3 ∧ fieldRB w = 0#5 ∧ j = i := by
  unfold oneSource at h
  split at h <;> cases h
  next hz => exact ⟨hz.1, hz.2, rfl⟩

theorem of_mType (h : mType w j = .ok i) : fieldRA w = 0#5 ∧ j = i := by
  unfold mType at h
  split at h <;> cases h
  exact ⟨‹_›, rfl⟩

/-- An R-type word is the layout of its own fields (rule R36). -/
theorem rWord_of_fields (hop : fieldOp w = 0b101010#6) (hz : fieldZero w = 0#3) :
    rWord (fieldRD w) (fieldRA w) (fieldRB w) (Width.ofBits (fieldWW w)) (fieldFunct w) = w := by
  rw [rWord, Width.bits_ofBits, ← hop, ← hz, rFields_append]

/-- An M-type word is the layout of its own fields (rule R37). -/
theorem mWord_of_fields (hz : fieldRA w = 0#5) :
    mWord (fieldOp w) (fieldRD w) (fieldImm w) = w := by
  rw [mWord, ← hz, mFields_append]

variable {f : BitVec 6}

theorem encode_of_threeOperand (hop : fieldOp w = 0b101010#6) (h : threeOperand w j = .ok i)
    (hj : encode j = rWord (fieldRD w) (fieldRA w) (fieldRB w) (Width.ofBits (fieldWW w)) f)
    (hf : (fieldFunct w).toNat = f.toNat) : encode i = w := by
  obtain ⟨hz, rfl⟩ := of_threeOperand h
  rw [hj, ← BitVec.eq_of_toNat_eq hf, rWord_of_fields hop hz]

theorem encode_of_oneSource (hop : fieldOp w = 0b101010#6) (h : oneSource w j = .ok i)
    (hj : encode j = rWord (fieldRD w) (fieldRA w) 0#5 (Width.ofBits (fieldWW w)) f)
    (hf : (fieldFunct w).toNat = f.toNat) : encode i = w := by
  obtain ⟨hz, hB, rfl⟩ := of_oneSource h
  rw [hj, ← hB, ← BitVec.eq_of_toNat_eq hf, rWord_of_fields hop hz]

theorem encode_of_mType {op : BitVec 6} (h : mType w j = .ok i)
    (hj : encode j = mWord op (fieldRD w) (fieldImm w))
    (hop : (fieldOp w).toNat = op.toNat) : encode i = w := by
  obtain ⟨hz, rfl⟩ := of_mType h
  rw [hj, ← BitVec.eq_of_toNat_eq hop, mWord_of_fields hz]

/-- Case h_n is function code n (rule R39), as in `wellFormed_of_decodeRType`. -/
theorem encode_of_decodeRType (hop : fieldOp w = 0b101010#6) (h : decodeRType w = .ok i) :
    encode i = w := by
  unfold decodeRType at h
  split at h
  case h_4 hf | h_5 hf | h_13 hf | h_18 hf => exact encode_of_oneSource hop h rfl hf
  case h_8 hf | h_9 hf => exact encode_of_threeOperand hop (of_notDouble h).2 rfl hf
  case h_16 hf | h_17 hf => exact encode_of_oneSource hop (of_notDouble h).2 rfl hf
  case h_19 => cases h
  all_goals exact encode_of_threeOperand hop h rfl ‹_›

/-- Cases h_5 to h_7 are the R-type, vnop and unassigned opcodes, the others M-type (rule R46). -/
theorem encode_of_decode (h : decode w = .ok i) : encode i = w := by
  unfold decode at h
  split at h
  case h_5 hop => exact encode_of_decodeRType (BitVec.eq_of_toNat_eq hop) h
  case h_6 =>
    split at h <;> cases h
    next hw => exact hw.symm
  case h_7 => cases h
  all_goals exact encode_of_mType h rfl ‹_›

end Decoded

/-- Settles O2, by `encode_of_decode` and `wellFormed_of_decode`. -/
theorem encodeOfDecodeIsTheWord : Obligations.EncodeOfDecodeIsTheWord :=
  fun _ _ h => ⟨encode_of_decode h, wellFormed_of_decode h⟩

end Sys2Proof
end

/-! The match and mask table against the decoder (30_encoding.md rule R46). -/
section

namespace Sys2Proof.Machine

variable {s : State} {w : InstrWord}

theorem step_of_decode {i : Instr} (hw : s.fetch = .word w) (hd : decode w = .ok i) :
    step s = exec i s := by
  simp only [step, hw, runWord, hd]

/-- A fetched word that is no instruction's is reserved. -/
theorem step_of_reserved (hw : s.fetch = .word w) (hd : ∀ i, decode w ≠ .ok i) :
    step s = .fault (.illegalInstruction w) := by
  cases h : decode w with
  | ok i => exact absurd h (hd i)
  | error e => simp only [step, hw, runWord, h, raise]

/-- Settles O8, by `step_of_decode`. -/
theorem stepRunsTheDecodedInstruction : Obligations.StepRunsTheDecodedInstruction :=
  fun _ _ _ => step_of_decode

end Sys2Proof.Machine

namespace Sys2Proof

/-! ### A word that a row admits is a word of the row's layout -/

/-- Where a row's mask is all ones, a word it admits has the bits of its pattern. -/
theorem Row.extractLsb'_of_admits {m : String} {p mask w : InstrWord} {b : Bool}
    (h : Row.admits ⟨m, p, mask, b⟩ w = true) (k n : Nat)
    (hmask : mask.extractLsb' k n = BitVec.allOnes n) :
    w.extractLsb' k n = p.extractLsb' k n := by
  simp only [Row.admits, Bool.and_eq_true, beq_iff_eq] at h
  rw [← h.1, BitVec.extractLsb'_and, hmask, BitVec.and_allOnes]

/-- A row with the extra constraint admits no word with WW = 11 (rule R50). -/
theorem Row.hasDouble_of_admits {r : Row} {w : InstrWord} (h : r.admits w = true)
    (hr : r.noDouble = true) : (Width.ofBits (fieldWW w)).hasDouble = true := by
  refine Width.hasDouble_ofBits fun hww => ?_
  simp [Row.admits, hr, hww] at h

/-- Every word the row admits is the word of an instruction with the row's mnemonic. -/
def Row.Spells (r : Row) : Prop :=
  ∀ w, r.admits w = true →
    ∃ i : Instr, i.wellFormed = true ∧ i.mnemonic = r.mnemonic ∧ encode i = w

section Spells
variable {m : String} {p : InstrWord} {b : Bool} {f : BitVec 6}

theorem Row.spells_threeOperand (c : Width → RegNum → RegNum → RegNum → Instr)
    (hc : ∀ ww rD rA rB, encode (c ww rD rA rB) = rWord rD rA rB ww f ∧
      (c ww rD rA rB).mnemonic = m ∧
      ((b = true → ww.hasDouble = true) → (c ww rD rA rB).wellFormed = true))
    (hp : fieldOp p = 0b101010#6 ∧ fieldZero p = 0#3 ∧ fieldFunct p = f) :
    Row.Spells ⟨m, p, 0xFC00073F#32, b⟩ := by
  intro w h
  obtain ⟨hop, hz, hf⟩ := hp
  obtain ⟨he, hm, hw⟩ := hc (Width.ofBits (fieldWW w)) (fieldRD w) (fieldRA w) (fieldRB w)
  refine ⟨_, hw (Row.hasDouble_of_admits h), hm, ?_⟩
  rw [he, ← (Row.extractLsb'_of_admits h 0 6 (by decide)).trans hf]
  exact rWord_of_fields ((Row.extractLsb'_of_admits h 26 6 (by decide)).trans hop)
    ((Row.extractLsb'_of_admits h 8 3 (by decide)).trans hz)

theorem Row.spells_oneSource (c : Width → RegNum → RegNum → Instr)
    (hc : ∀ ww rD rA, encode (c ww rD rA) = rWord rD rA 0#5 ww f ∧ (c ww rD rA).mnemonic = m ∧
      ((b = true → ww.hasDouble = true) → (c ww rD rA).wellFormed = true))
    (hp : fieldOp p = 0b101010#6 ∧ fieldZero p = 0#3 ∧ fieldRB p = 0#5 ∧ fieldFunct p = f) :
    Row.Spells ⟨m, p, 0xFC00FF3F#32, b⟩ := by
  intro w h
  obtain ⟨hop, hz, hB, hf⟩ := hp
  obtain ⟨he, hm, hw⟩ := hc (Width.ofBits (fieldWW w)) (fieldRD w) (fieldRA w)
  refine ⟨_, hw (Row.hasDouble_of_admits h), hm, ?_⟩
  rw [he, ← (Row.extractLsb'_of_admits h 0 6 (by decide)).trans hf,
    ← (Row.extractLsb'_of_admits h 11 5 (by decide)).trans hB]
  exact rWord_of_fields ((Row.extractLsb'_of_admits h 26 6 (by decide)).trans hop)
    ((Row.extractLsb'_of_admits h 8 3 (by decide)).trans hz)

theorem Row.spells_mType (c : RegNum → Imm16 → Instr) {op : BitVec 6}
    (hc : ∀ rD imm, encode (c rD imm) = mWord op rD imm ∧ (c rD imm).mnemonic = m ∧
      (c rD imm).wellFormed = true)
    (hp : fieldOp p = op ∧ fieldRA p = 0#5) : Row.Spells ⟨m, p, 0xFC1F0000#32, b⟩ := by
  intro w h
  obtain ⟨hop, hz⟩ := hp
  obtain ⟨he, hm, hw⟩ := hc (fieldRD w) (fieldImm w)
  refine ⟨_, hw, hm, ?_⟩
  rw [he, ← (Row.extractLsb'_of_admits h 26 6 (by decide)).trans hop]
  exact mWord_of_fields ((Row.extractLsb'_of_admits h 16 5 (by decide)).trans hz)

end Spells

theorem Row.spells_of_mem_rowsThreeOperand : ∀ r ∈ rowsThreeOperand, r.Spells := by
  simp only [rowsThreeOperand, List.forall_mem_cons]
  exact ⟨
    Row.spells_threeOperand .vand (fun _ _ _ _ => ⟨rfl, rfl, fun _ => rfl⟩) (by decide),
    Row.spells_threeOperand .vor (fun _ _ _ _ => ⟨rfl, rfl, fun _ => rfl⟩) (by decide),
    Row.spells_threeOperand .vxor (fun _ _ _ _ => ⟨rfl, rfl, fun _ => rfl⟩) (by decide),
    Row.spells_threeOperand .vadd (fun _ _ _ _ => ⟨rfl, rfl, fun _ => rfl⟩) (by decide),
    Row.spells_threeOperand .vsub (fun _ _ _ _ => ⟨rfl, rfl, fun _ => rfl⟩) (by decide),
    Row.spells_threeOperand .vmuleu (fun _ _ _ _ => ⟨rfl, rfl, fun h => h rfl⟩) (by decide),
    Row.spells_threeOperand .vmulou (fun _ _ _ _ => ⟨rfl, rfl, fun h => h rfl⟩) (by decide),
    Row.spells_threeOperand .vsll (fun _ _ _ _ => ⟨rfl, rfl, fun _ => rfl⟩) (by decide),
    Row.spells_threeOperand .vsrl (fun _ _ _ _ => ⟨rfl, rfl, fun _ => rfl⟩) (by decide),
    Row.spells_threeOperand .vsra (fun _ _ _ _ => ⟨rfl, rfl, fun _ => rfl⟩) (by decide),
    Row.spells_threeOperand .vdivu (fun _ _ _ _ => ⟨rfl, rfl, fun _ => rfl⟩) (by decide),
    Row.spells_threeOperand .vmodu (fun _ _ _ _ => ⟨rfl, rfl, fun _ => rfl⟩) (by decide),
    List.forall_mem_nil _⟩

theorem Row.spells_of_mem_rowsOneSource : ∀ r ∈ rowsOneSource, r.Spells := by
  simp only [rowsOneSource, List.forall_mem_cons]
  exact ⟨
    Row.spells_oneSource .vnot (fun _ _ _ => ⟨rfl, rfl, fun _ => rfl⟩) (by decide),
    Row.spells_oneSource .vmov (fun _ _ _ => ⟨rfl, rfl, fun _ => rfl⟩) (by decide),
    Row.spells_oneSource .vrtth (fun _ _ _ => ⟨rfl, rfl, fun _ => rfl⟩) (by decide),
    Row.spells_oneSource .vsqeu (fun _ _ _ => ⟨rfl, rfl, fun h => h rfl⟩) (by decide),
    Row.spells_oneSource .vsqou (fun _ _ _ => ⟨rfl, rfl, fun h => h rfl⟩) (by decide),
    Row.spells_oneSource .vsqrtu (fun _ _ _ => ⟨rfl, rfl, fun _ => rfl⟩) (by decide),
    List.forall_mem_nil _⟩

theorem Row.spells_of_mem_rowsOther : ∀ r ∈ rowsOther, r.Spells := by
  simp only [rowsOther, List.forall_mem_cons]
  exact ⟨
    Row.spells_mType .vld (fun _ _ => ⟨rfl, rfl, rfl⟩) (by decide),
    Row.spells_mType .vsd (fun _ _ => ⟨rfl, rfl, rfl⟩) (by decide),
    Row.spells_mType .vbeq (fun _ _ => ⟨rfl, rfl, rfl⟩) (by decide),
    Row.spells_mType .vbneq (fun _ _ => ⟨rfl, rfl, rfl⟩) (by decide),
    fun w h => ⟨.vnop, rfl, rfl, by
      simpa [eq_comm, encode] using Row.extractLsb'_of_admits h 0 32 (by decide)⟩,
    List.forall_mem_nil _⟩

theorem Row.spells_of_mem {r : Row} (h : r ∈ opcodeRows) : r.Spells := by
  simp only [opcodeRows, List.mem_append] at h
  rcases h with (h | h) | h
  · exact Row.spells_of_mem_rowsThreeOperand r h
  · exact Row.spells_of_mem_rowsOneSource r h
  · exact Row.spells_of_mem_rowsOther r h

/-! ### Rows and decoded words -/

/-- A word a row admits decodes to the instruction the row spells. -/
theorem Row.decode_of_admits {r : Row} {w : InstrWord} (hr : r ∈ opcodeRows)
    (h : r.admits w = true) :
    ∃ i, decode w = .ok i ∧ i.mnemonic = r.mnemonic ∧ encode i = w := by
  obtain ⟨i, hi, hm, rfl⟩ := Row.spells_of_mem hr w h
  exact ⟨i, decodeOfEncodeIsTheInstruction i hi, hm, rfl⟩

/-- The word of a well-formed instruction matches the row of its mnemonic. -/
theorem Instr.matchesRow (i : Instr) : Laws.MatchesRow.Statement i := by
  cases i with
  | vand ww rD rA rB => exact Laws.MatchesRow.vand ww rD rA rB
  | vor ww rD rA rB => exact Laws.MatchesRow.vor ww rD rA rB
  | vxor ww rD rA rB => exact Laws.MatchesRow.vxor ww rD rA rB
  | vnot ww rD rA => exact Laws.MatchesRow.vnot ww rD rA
  | vmov ww rD rA => exact Laws.MatchesRow.vmov ww rD rA
  | vadd ww rD rA rB => exact Laws.MatchesRow.vadd ww rD rA rB
  | vsub ww rD rA rB => exact Laws.MatchesRow.vsub ww rD rA rB
  | vmuleu ww rD rA rB => exact Laws.MatchesRow.vmuleu ww rD rA rB
  | vmulou ww rD rA rB => exact Laws.MatchesRow.vmulou ww rD rA rB
  | vsll ww rD rA rB => exact Laws.MatchesRow.vsll ww rD rA rB
  | vsrl ww rD rA rB => exact Laws.MatchesRow.vsrl ww rD rA rB
  | vsra ww rD rA rB => exact Laws.MatchesRow.vsra ww rD rA rB
  | vrtth ww rD rA => exact Laws.MatchesRow.vrtth ww rD rA
  | vdivu ww rD rA rB => exact Laws.MatchesRow.vdivu ww rD rA rB
  | vmodu ww rD rA rB => exact Laws.MatchesRow.vmodu ww rD rA rB
  | vsqeu ww rD rA => exact Laws.MatchesRow.vsqeu ww rD rA
  | vsqou ww rD rA => exact Laws.MatchesRow.vsqou ww rD rA
  | vsqrtu ww rD rA => exact Laws.MatchesRow.vsqrtu ww rD rA
  | vld rD imm => exact Laws.MatchesRow.vld rD imm
  | vsd rD imm => exact Laws.MatchesRow.vsd rD imm
  | vbeq rD imm => exact Laws.MatchesRow.vbeq rD imm
  | vbneq rD imm => exact Laws.MatchesRow.vbneq rD imm
  | vnop => exact Laws.MatchesRow.vnop

/-- A word that decodes matches the row of its instruction's mnemonic. -/
theorem exists_row_of_decode {w : InstrWord} {i : Instr} (h : decode w = .ok i) :
    ∃ r ∈ opcodeRows, r.admits w = true ∧ r.mnemonic = i.mnemonic := by
  obtain ⟨r, hr, hm, hadmits⟩ := i.matchesRow (wellFormed_of_decode h)
  exact ⟨r, hr, encode_of_decode h ▸ hadmits, hm⟩

theorem Row.eq_of_mnemonic_eq {r r' : Row} (hr : r ∈ opcodeRows) (hr' : r' ∈ opcodeRows)
    (h : r.mnemonic = r'.mnemonic) : r = r' :=
  List.inj_on_of_nodup_map (f := Row.mnemonic) (by decide) hr hr' h

/-- Settles O3: a row spells the words it admits, and those decode to what they spell; an
instruction's word matches the row of its mnemonic, and no two rows have one mnemonic. -/
theorem decodeAgreesWithMatchTable : Obligations.DecodeAgreesWithMatchTable := by
  refine ⟨fun w r => Row.decode_of_admits, fun w i => exists_row_of_decode,
    fun w r r' hr hr' h h' => ?_, fun s w hw hno => Machine.step_of_reserved hw fun i hd => ?_⟩
  · obtain ⟨i, hi, hm, -⟩ := Row.decode_of_admits hr h
    obtain ⟨j, hj, hm', -⟩ := Row.decode_of_admits hr' h'
    cases hi.symm.trans hj
    exact Row.eq_of_mnemonic_eq hr hr' (hm.symm.trans hm')
  · obtain ⟨r, hr, hadmits, -⟩ := exists_row_of_decode hd
    exact absurd hadmits (by simp [hno r hr])

end Sys2Proof
end

/-! Reserved words (30_encoding.md rules R47 to R50): an instruction's word has one of four layouts,
and no reserved word has. -/
section

namespace Sys2Proof

/-! ### The words of the instructions -/

/-- The function codes of the three-operand instructions (rule R39). -/
def threeOperandCodes : List (BitVec 6) := [1, 2, 3, 6, 7, 8, 9, 10, 11, 12, 14, 15]

/-- The function codes of the one-source instructions (rules R39, R42). -/
def oneSourceCodes : List (BitVec 6) := [4, 5, 13, 16, 17, 18]

/-- The function codes without a WW = 11 form (rule R50). -/
def doubleWidthCodes : List (BitVec 6) := [8, 9, 16, 17]

/-- The opcodes of the M-type instructions (rule R38). -/
def mTypeOpcodes : List (BitVec 6) := [0b100000, 0b100001, 0b100010, 0b100011]

/-- The words the layouts and the assigned codes give; `assigned_of_decode` ties them to the
decoder. -/
inductive Assigned : InstrWord → Prop where
  | threeOperand (rD rA rB : RegNum) (ww : Width) (f : BitVec 6) (hf : f ∈ threeOperandCodes)
      (hw : ww.hasDouble = true ∨ f ∉ doubleWidthCodes) : Assigned (rWord rD rA rB ww f)
  | oneSource (rD rA : RegNum) (ww : Width) (f : BitVec 6) (hf : f ∈ oneSourceCodes)
      (hw : ww.hasDouble = true ∨ f ∉ doubleWidthCodes) : Assigned (rWord rD rA 0#5 ww f)
  | mType (op : BitVec 6) (rD : RegNum) (imm : Imm16) (hop : op ∈ mTypeOpcodes) :
      Assigned (mWord op rD imm)
  | nop : Assigned 0xF0000000#32

theorem assigned_encode {i : Instr} (h : i.wellFormed = true) : Assigned (encode i) := by
  cases i with
  | vmuleu | vmulou => exact .threeOperand _ _ _ _ _ (by decide) (.inl h)
  | vsqeu | vsqou => exact .oneSource _ _ _ _ (by decide) (.inl h)
  | vnot | vmov | vrtth | vsqrtu => exact .oneSource _ _ _ _ (by decide) (.inr (by decide))
  | vld | vsd | vbeq | vbneq => exact .mType _ _ _ (by decide)
  | vnop => exact .nop
  | _ => exact .threeOperand _ _ _ _ _ (by decide) (.inr (by decide))

theorem assigned_of_decode {w : InstrWord} {i : Instr} (h : decode w = .ok i) : Assigned w :=
  encode_of_decode h ▸ assigned_encode (wellFormed_of_decode h)

/-- The terms without an encoding are of four instructions, each with width d (rule R50). -/
theorem Instr.eq_of_not_wellFormed {i : Instr} (h : i.wellFormed = false) :
    ∃ rD rA rB, i = .vmuleu .d rD rA rB ∨ i = .vmulou .d rD rA rB ∨ i = .vsqeu .d rD rA ∨
      i = .vsqou .d rD rA := by
  have hd {ww : Width} (h : ww.hasDouble = false) : ww = .d := by
    cases ww with
    | d => rfl
    | _ => cases h
  cases i with
  | vmuleu ww rD rA rB => exact ⟨rD, rA, rB, by simp [hd h]⟩
  | vmulou ww rD rA rB => exact ⟨rD, rA, rB, by simp [hd h]⟩
  | vsqeu ww rD rA => exact ⟨rD, rA, 0, by simp [hd h]⟩
  | vsqou ww rD rA => exact ⟨rD, rA, 0, by simp [hd h]⟩
  | _ => cases h

/-! ### What the fields of such a word are -/

theorem threeOperandCodes_bounds : ∀ f ∈ threeOperandCodes, 0#6 < f ∧ f < 19#6 := by decide

theorem oneSourceCodes_bounds : ∀ f ∈ oneSourceCodes, 0#6 < f ∧ f < 19#6 := by decide

theorem not_mem_oneSourceCodes : ∀ f ∈ threeOperandCodes, f ∉ oneSourceCodes := by decide

section Fields
variable {w : InstrWord} (h : Assigned w)
include h

theorem Assigned.fieldOp_mem : fieldOp w ∈ mTypeOpcodes ++ [0b101010#6, 0b111100#6] := by
  cases h with
  | threeOperand | oneSource => rw [fieldOp_rWord]; decide
  | mType op rD imm hop => rw [fieldOp_mWord]; exact List.mem_append_left _ hop
  | nop => decide

/-- A word of opcode 101010 has one of the two R-type layouts. -/
theorem Assigned.of_rType (hop : fieldOp w = 0b101010#6) :
    fieldZero w = 0#3 ∧ (0#6 < fieldFunct w ∧ fieldFunct w < 19#6) ∧
      (fieldFunct w ∈ oneSourceCodes → fieldRB w = 0#5) ∧
      (fieldFunct w ∈ doubleWidthCodes → fieldWW w ≠ 0b11#2) := by
  have hwidth {ww : Width} {f : BitVec 6} (hw : ww.hasDouble = true ∨ f ∉ doubleWidthCodes)
      (hf : f ∈ doubleWidthCodes) : ww.bits ≠ 0b11#2 :=
    Laws.MatchesRow.bits_ne_of_hasDouble ww (hw.resolve_right (not_not_intro hf))
  cases h with
  | threeOperand rD rA rB ww f hf hw =>
    rw [fieldFunct_rWord, fieldWW_rWord]
    exact ⟨fieldZero_rWord .., threeOperandCodes_bounds f hf,
      fun hone => absurd hone (not_mem_oneSourceCodes f hf), hwidth hw⟩
  | oneSource rD rA ww f hf hw =>
    rw [fieldFunct_rWord, fieldWW_rWord]
    exact ⟨fieldZero_rWord .., oneSourceCodes_bounds f hf, fun _ => fieldRB_rWord .., hwidth hw⟩
  | mType op rD imm hop' => rw [fieldOp_mWord] at hop; subst hop; exact absurd hop' (by decide)
  | nop => exact absurd hop (by decide)

theorem Assigned.of_mType (hop : fieldOp w ∈ mTypeOpcodes) : fieldRA w = 0#5 := by
  cases h with
  | threeOperand | oneSource => rw [fieldOp_rWord] at hop; exact absurd hop (by decide)
  | mType op rD imm => exact fieldRA_mWord op rD imm
  | nop => exact absurd hop (by decide)

theorem Assigned.of_nop (hop : fieldOp w = 0b111100#6) : w = 0xF0000000#32 := by
  cases h with
  | threeOperand | oneSource => rw [fieldOp_rWord] at hop; exact absurd hop (by decide)
  | mType op rD imm hop' => rw [fieldOp_mWord] at hop; subst hop; exact absurd hop' (by decide)
  | nop => rfl

end Fields

end Sys2Proof

namespace Sys2Proof.Machine

theorem step_of_not_assigned {s : State} {w : InstrWord} (hw : s.fetch = .word w)
    (h : ¬ Assigned w) : step s = .fault (.illegalInstruction w) :=
  step_of_reserved hw fun _ hd => h (assigned_of_decode hd)

/-- Settles O5, by the opcode and the function code an assigned word has; the all-zero and the
all-ones word have unassigned opcodes. -/
theorem unassignedCodesAreIllegal : Obligations.UnassignedCodesAreIllegal := by
  intro s w hw h
  refine step_of_not_assigned hw fun ha => ?_
  rcases h with hop | rfl | rfl | ⟨hop, hfunct⟩
  · exact hop ha.fieldOp_mem
  · exact absurd ha.fieldOp_mem (by decide)
  · exact absurd ha.fieldOp_mem (by decide)
  · obtain ⟨-, ⟨hpos, hlt⟩, -⟩ := ha.of_rType hop
    rcases hfunct with h0 | hge
    · exact BitVec.ne_of_lt hpos h0.symm
    · exact BitVec.not_lt.mpr hge hlt

/-- Settles O6, by the zero fields of each layout. -/
theorem nonzeroFieldsAreIllegal : Obligations.NonzeroFieldsAreIllegal := by
  intro s w hw h
  refine step_of_not_assigned hw fun ha => ?_
  rcases h with ⟨hop, hne⟩ | ⟨hop, hfunct, hne⟩ | ⟨hop, hne⟩ | ⟨hop, hne⟩
  · exact hne (ha.of_rType hop).1
  · obtain ⟨-, -, hB, -⟩ := ha.of_rType hop
    exact hne (hB hfunct)
  · exact hne (ha.of_mType hop)
  · exact hne (by rw [ha.of_nop hop]; decide)

/-- Settles O7: an assigned word has no WW = 11 where a double width has no form, and a term without
an encoding is of those four instructions. -/
theorem reservedWidthsAreIllegal : Obligations.ReservedWidthsAreIllegal := by
  refine ⟨fun s w hw hop hfunct hww => step_of_not_assigned hw fun ha => ?_, fun i s hi =>
    ⟨exec_of_not_wellFormed hi s, Instr.eq_of_not_wellFormed hi⟩⟩
  obtain ⟨-, -, -, hdouble⟩ := ha.of_rType hop
  exact hdouble hfunct hww

end Sys2Proof.Machine
end

/-! Words written out, and the idioms (30_encoding.md rule R56, 95_test_vectors.md part 2.1). -/
section

namespace Sys2Proof

/-- Settles O4, by running the decoder on each word. -/
theorem sampleWordsDecode : Obligations.SampleWordsDecode := by
  unfold Obligations.SampleWordsDecode
  decide

end Sys2Proof

namespace Sys2Proof.Machine

/-- A register subtracted from itself is zero in every lane (rule R67). -/
theorem zipLanes_subLane_self (ww : Width) (a : Word) :
    zipLanes ww (subLane ww.size) a a = 0#64 := by
  refine eq_of_lanes ww fun k hk => ?_
  have hsub : (subLane ww.size (lane a ww.size k) (lane a ww.size k) : Int) = 0 := by
    rw [subLane_eq _ _ _ (lane_lt a ww.size k), sub_self, Int.zero_emod]
  rw [lane_zipLanes ww _ a a k hk, Int.natCast_eq_zero.mp hsub]
  simp [lane]

section Holds
variable {s : State} {r : RegNum} (h : s.holds r = true)
include h

theorem exec_vbeq_of_holds (imm : Imm16) : exec (.vbeq r imm) s =
    .next (if s.value r = 0#64 then s.branchTo imm else s.advance) := by
  simp [exec_vbeq, branchOp, State.readReg_of_holds h]

theorem exec_vbneq_of_holds (imm : Imm16) : exec (.vbneq r imm) s =
    .next (if s.value r = 0#64 then s.advance else s.branchTo imm) := by
  simp [exec_vbneq, branchOp, State.readReg_of_holds h]

/-- An operation of a held register with itself gives an ordinary destination the result, and a read
of the destination answers it. -/
theorem twoSourceOp_self_of_holds {f : Word → Word → Word} {rD : RegNum} {v : Word}
    (hD : s.hardwired rD = false) (hf : f (s.value r) (s.value r) = v) :
    ∃ t, twoSourceOp f rD r r s = .next t ∧ t.hardwired rD = false ∧ t.reg rD = v ∧
      t.readReg rD = (v, t) := by
  refine ⟨_, (twoSourceOp_ok (State.readPair_of_holds h h)).1, ?_, ?_, ?_⟩
  · simp [hD]
  · simp [hD, hf]
  · simp [State.readReg, hD, hf]

end Holds

/-- Settles O60: a held register gives both operands one value, so exclusive OR and difference are
zero; vbeq is taken on zero, and otherwise vbneq reads the same value again. -/
theorem idiomsDoWhatTheySay : Obligations.IdiomsDoWhatTheySay := by
  refine ⟨fun rD rA s h hD => ?_, fun r imm s h => ?_⟩
  · obtain ⟨t, ht, htD, htreg, htread⟩ := twoSourceOp_self_of_holds h hD BitVec.xor_self
    obtain ⟨u, hu, -, hureg, -⟩ :=
      twoSourceOp_self_of_holds h hD (zipLanes_subLane_self .d (s.value rA))
    obtain ⟨hz, hgives⟩ := oneSourceOp_ok (f := fun a => ~~~a) (rD := rD) htread
    refine ⟨t, u, _, ht, htreg, hu, hureg, hz, ?_⟩
    rw [hgives.regs, if_pos ⟨rfl, htD⟩]
    rfl
  · have htarget : branchTarget imm = .at (0#16 ++ imm) :=
      congrArg Pc.at (BitVec.setWidth_eq_append (by decide))
    rw [exec_vbeq_of_holds h]
    by_cases hv : s.value r = 0#64
    · exact ⟨_, rfl, .inl (by rw [if_pos hv, State.branchTo_pc, htarget])⟩
    · refine ⟨_, rfl, .inr ⟨s.advance.branchTo imm, ?_, htarget⟩⟩
      have hread : s.advance.value r ≠ 0#64 := hv
      rw [if_neg hv, exec_vbneq_of_holds (s := s.advance) h, if_neg hread]

end Sys2Proof.Machine
end

/-! The bitwise instructions and the move: one operation on the whole register is the operation on
every lane of every width (40_logical_move.md rules R60 to R65). -/
section

namespace Sys2Proof.Machine

/-! ### A lane of a bitwise result (rule R60) -/

section Lanes
variable (a b : Word) (size k : Nat)

@[simp] theorem lane_and : lane (a &&& b) size k = lane a size k &&& lane b size k := by
  simp only [lane, BitVec.toNat_and, Nat.shiftRight_and_distrib, Nat.and_mod_two_pow]

@[simp] theorem lane_or : lane (a ||| b) size k = lane a size k ||| lane b size k := by
  simp only [lane, BitVec.toNat_or, Nat.shiftRight_or_distrib, Nat.or_mod_two_pow]

@[simp] theorem lane_xor : lane (a ^^^ b) size k = lane a size k ^^^ lane b size k := by
  simp only [lane, BitVec.toNat_xor, Nat.shiftRight_xor_distrib, Nat.xor_mod_two_pow]

/-- The complement of a lane inside the register, bit by bit. -/
theorem lane_not (h : (k + 1) * size ≤ 64) :
    lane (~~~a) size k = 2 ^ size - 1 - lane a size k := by
  refine Nat.eq_of_testBit_eq fun i => ?_
  have hcomplement : 2 ^ size - 1 - lane a size k = 2 ^ size - (lane a size k + 1) := by omega
  rw [hcomplement, Nat.testBit_two_pow_sub_succ (lane_lt a size k)]
  rcases Nat.lt_or_ge i size with hi | hi
  · have hsize : size ≤ (k + 1) * size := Nat.le_mul_of_pos_left size k.succ_pos
    have hin : 64 - (k + 1) * size + i < 64 := by omega
    rw [lane_testBit _ k hi, lane_testBit _ k hi, BitVec.getLsbD_not, decide_eq_true hin,
      decide_eq_true hi]
  · rw [decide_eq_false hi.not_gt, Bool.false_and,
      Nat.testBit_lt_two_pow ((lane_lt _ size k).trans_le (Nat.pow_le_pow_right two_pos hi))]

end Lanes

/-! ### The encoding, completion, result and frame of an operand form (rules R11, R36, R104) -/

theorem oneSourceOp_completes {s s1 : State} {a : Word} {rA : RegNum} (f : Word → Word)
    (rD : RegNum) (hA : s.readReg rA = (a, s1)) :
    ∃ t, oneSourceOp f rD rA s = .next t ∧ GivesRegister s t rD (f a) s1.draws :=
  ⟨_, oneSourceOp_ok hA⟩

theorem twoSourceOp_completes {s s1 s2 : State} {a b : Word} {rA rB : RegNum}
    (f : Word → Word → Word) (rD : RegNum) (hA : s.readReg rA = (a, s1))
    (hB : s1.readReg rB = (b, s2)) :
    ∃ t, twoSourceOp f rD rA rB s = .next t ∧ GivesRegister s t rD (f a b) s2.draws :=
  ⟨_, twoSourceOp_ok (by simp only [State.readPair, hA, hB])⟩

section Forms
variable {i : Instr} {rD rA rB : RegNum} (hw : i.wellFormed = true)
include hw

/-- A well-formed one-source instruction is decoded from its word and gives rD the result. -/
theorem decodes_and_gives_of_oneSource {f : Word → Word}
    (he : ∀ s, exec i s = oneSourceOp f rD rA s) :
    decode (encode i) = .ok i ∧
    ∀ (s s1 : State) (a : Word), s.readReg rA = (a, s1) →
      ∃ t, exec i s = .next t ∧ GivesRegister s t rD (f a) s1.draws := by
  refine ⟨decodeOfEncodeIsTheInstruction i hw, fun s s1 a hA => ?_⟩
  rw [he]
  exact oneSourceOp_completes f rD hA

/-- A well-formed two-source instruction is decoded from its word and gives rD the result. -/
theorem decodes_and_gives_of_twoSource {f : Word → Word → Word}
    (he : ∀ s, exec i s = twoSourceOp f rD rA rB s) :
    decode (encode i) = .ok i ∧
    ∀ (s s1 s2 : State) (a b : Word), s.readReg rA = (a, s1) → s1.readReg rB = (b, s2) →
      ∃ t, exec i s = .next t ∧ GivesRegister s t rD (f a b) s2.draws := by
  refine ⟨decodeOfEncodeIsTheInstruction i hw, fun s s1 s2 a b hA hB => ?_⟩
  rw [he]
  exact twoSourceOp_completes f rD hA hB

end Forms

/-! ### The width (rule R60) -/

/-- Settles O33: the width does not stand in the operand forms `exec_vand` to `exec_vmov`, and each
of the five is well-formed at every width. -/
theorem widthDoesNotMatterForBitwise : Obligations.WidthDoesNotMatterForBitwise := by
  have hdecode : ∀ i : Instr, i.wellFormed = true → decode (encode i) = .ok i :=
    decodeOfEncodeIsTheInstruction
  refine ⟨fun ww ww' rD rA rB s => ?_, fun ww a b k hk => ?_, fun ww rD rA rB => ?_⟩
  · simp only [exec_vand, exec_vor, exec_vxor, exec_vnot, exec_vmov, and_self]
  · exact ⟨lane_and a b _ k, lane_or a b _ k, lane_xor a b _ k,
      lane_not a _ k (Width.lane_end_le hk)⟩
  · exact ⟨hdecode _ rfl, hdecode _ rfl, hdecode _ rfl, hdecode _ rfl, hdecode _ rfl⟩

/-! ### Each instruction: its layout is its word, its operand form names the operation -/

/-- Settles O28, from the operand form `exec_vand`. -/
theorem vandWritesTheAnd : Obligations.VandWritesTheAnd := fun ww rD rA rB =>
  decodes_and_gives_of_twoSource (i := .vand ww rD rA rB) rfl (exec_vand ww rD rA rB)

/-- Settles O29, from the operand form `exec_vor`. -/
theorem vorWritesTheOr : Obligations.VorWritesTheOr := fun ww rD rA rB =>
  decodes_and_gives_of_twoSource (i := .vor ww rD rA rB) rfl (exec_vor ww rD rA rB)

/-- Settles O30, from the operand form `exec_vxor`. -/
theorem vxorWritesTheExclusiveOr : Obligations.VxorWritesTheExclusiveOr := fun ww rD rA rB =>
  decodes_and_gives_of_twoSource (i := .vxor ww rD rA rB) rfl (exec_vxor ww rD rA rB)

/-- Settles O31, from the operand form `exec_vnot`. -/
theorem vnotWritesTheComplement : Obligations.VnotWritesTheComplement := fun ww rD rA =>
  decodes_and_gives_of_oneSource (i := .vnot ww rD rA) rfl (exec_vnot ww rD rA)

/-- Settles O32, from the operand form `exec_vmov`. -/
theorem vmovCopiesTheRegister : Obligations.VmovCopiesTheRegister := fun ww rD rA =>
  decodes_and_gives_of_oneSource (i := .vmov ww rD rA) rfl (exec_vmov ww rD rA)

end Sys2Proof.Machine
end

/-! The lane sums, differences and double-width products (41_add_sub_multiply.md rules R66 to R69). -/
section

namespace Sys2Proof

/-- Every width but the double-word has a double (rule R50). -/
theorem Width.hasDouble_of_ne_d {ww : Width} (h : ww ≠ .d) : ww.hasDouble = true := by
  cases ww with
  | b | h | w => rfl
  | d => exact absurd rfl h

/-- Half of a width's lanes are the lanes of double width (rule R8). -/
theorem Width.half_lanes (ww : Width) : ww.lanes / 2 = 64 / (2 * ww.size) := by
  rw [Width.lanes, Nat.div_div_eq_div_mul, Nat.mul_comm]

end Sys2Proof

namespace Sys2Proof.Machine

/-! ### A lane of the result -/

section Lanes
variable {ww : Width} (a b : Word)

theorem lane_zipLanes_addLane {k : Nat} (hk : k < ww.lanes) :
    lane (zipLanes ww (addLane ww.size) a b) ww.size k =
      (lane a ww.size k + lane b ww.size k) % 2 ^ ww.size := by
  rw [lane_zipLanes ww _ a b k hk, addLane, dropCarry, Nat.mod_mod]

theorem lane_zipLanes_subLane {k : Nat} (hk : k < ww.lanes) :
    lane (zipLanes ww (subLane ww.size) a b) ww.size k =
      subLane ww.size (lane a ww.size k) (lane b ww.size k) := by
  rw [lane_zipLanes ww _ a b k hk, subLane, dropCarry, Nat.mod_mod]

/-- A product lane is exact: the product of two lanes fits the double width (rule R68). -/
theorem lane_zipEven_mul (hw : ww.hasDouble = true) {j : Nat} (hj : j < ww.lanes / 2) :
    lane (zipEven ww (fun u v => u * v) a b) (2 * ww.size) j =
      lane a ww.size (2 * j) * lane b ww.size (2 * j) := by
  rw [lane_zipEven ww hw _ a b j (ww.half_lanes ▸ hj), Nat.mod_eq_of_lt (lane_mul_fits a b _ _ _)]

/-- As `lane_zipEven_mul`, of the odd lanes (rule R69). -/
theorem lane_zipOdd_mul (hw : ww.hasDouble = true) {j : Nat} (hj : j < ww.lanes / 2) :
    lane (zipOdd ww (fun u v => u * v) a b) (2 * ww.size) j =
      lane a ww.size (2 * j + 1) * lane b ww.size (2 * j + 1) := by
  rw [lane_zipOdd ww hw _ a b j (ww.half_lanes ▸ hj), Nat.mod_eq_of_lt (lane_mul_fits a b _ _ _)]

end Lanes

/-! ### Encoding, completion and frame, the result described -/

/-- A well-formed two-source instruction is decoded from its word and gives rD a value that has every
property `P` that its operation's results have. -/
theorem decodes_and_gives_some_of_twoSource {i : Instr} {rD rA rB : RegNum}
    {f : Word → Word → Word} {P : Word → Word → Word → Prop} (hw : i.wellFormed = true)
    (he : ∀ s, exec i s = twoSourceOp f rD rA rB s) (hP : ∀ a b, P a b (f a b)) :
    decode (encode i) = .ok i ∧
    ∀ (s s1 s2 : State) (a b : Word), s.readReg rA = (a, s1) → s1.readReg rB = (b, s2) →
      ∃ t v, exec i s = .next t ∧ GivesRegister s t rD v s2.draws ∧ P a b v := by
  obtain ⟨hdecode, hgives⟩ := decodes_and_gives_of_twoSource hw he
  refine ⟨hdecode, fun s s1 s2 a b hA hB => ?_⟩
  obtain ⟨t, ht, hframe⟩ := hgives s s1 s2 a b hA hB
  exact ⟨t, f a b, ht, hframe, hP a b⟩

/-! ### Each instruction: its layout is its word, its operand form names the operation -/

/-- Settles O34, from the operand form `exec_vadd`: each lane sum drops its own carry. -/
theorem vaddAddsLanes : Obligations.VaddAddsLanes := fun ww rD rA rB =>
  decodes_and_gives_some_of_twoSource (i := .vadd ww rD rA rB) rfl (exec_vadd ww rD rA rB)
    fun a b _ hk => lane_zipLanes_addLane a b hk

/-- Settles O35, from the operand form `exec_vsub`: the model computes the manual's form, and
`subLane_eq` says that it is the difference. -/
theorem vsubSubtractsLanes : Obligations.VsubSubtractsLanes := fun ww rD rA rB =>
  decodes_and_gives_some_of_twoSource (i := .vsub ww rD rA rB) rfl (exec_vsub ww rD rA rB)
    fun a b k hk => by
      rw [lane_zipLanes_subLane a b hk]
      exact ⟨subLane_eq _ _ _ (lane_lt b ww.size k), rfl⟩

/-- Settles O36, from the operand form `exec_vmuleu`, which every width but d has. -/
theorem vmuleuMultipliesEvenLanes : Obligations.VmuleuMultipliesEvenLanes :=
  fun ww rD rA rB hne =>
    have hw : ww.hasDouble = true := Width.hasDouble_of_ne_d hne
    decodes_and_gives_some_of_twoSource (i := .vmuleu ww rD rA rB) hw
      (fun s => exec_vmuleu ww rD rA rB s hw) fun a b _ hj => lane_zipEven_mul a b hw hj

/-- Settles O37, from the operand form `exec_vmulou`, which every width but d has. -/
theorem vmulouMultipliesOddLanes : Obligations.VmulouMultipliesOddLanes :=
  fun ww rD rA rB hne =>
    have hw : ww.hasDouble = true := Width.hasDouble_of_ne_d hne
    decodes_and_gives_some_of_twoSource (i := .vmulou ww rD rA rB) hw
      (fun s => exec_vmulou ww rD rA rB s hw) fun a b _ hj => lane_zipOdd_mul a b hw hj

end Sys2Proof.Machine
end

/-! The shifts and the exchange of halves: the amount a lane gives, and the lane each operation
computes (42_shift_rotate.md rules R70 to R74). -/
section

namespace Sys2Proof

/-- A lane width is the power of two that its WW bits name (rule R41). -/
theorem Width.size_eq_two_pow (ww : Width) : ww.size = 2 ^ (ww.bits.toNat + 3) := by
  cases ww <;> rfl

/-- Two halves make up a lane (rule R74). -/
theorem Width.half_size_add_half_size (ww : Width) : ww.size / 2 + ww.size / 2 = ww.size := by
  cases ww <;> rfl

end Sys2Proof

namespace Sys2Proof.Machine

/-! ### The amount (rule R70) -/

/-- The three shifts are one operand form each, whose lane operation reads no more of an amount than
`shiftAmount` (rule R70). -/
theorem exec_shift {ww : Width} {rD rA rB : RegNum} {i : Instr}
    (hi : i ∈ [Instr.vsll ww rD rA rB, Instr.vsrl ww rD rA rB, Instr.vsra ww rD rA rB]) :
    ∃ f : Nat → Nat → Nat, (∀ s, exec i s = twoSourceOp (zipLanes ww f) rD rA rB s) ∧
      ∀ u v v', shiftAmount ww.size v = shiftAmount ww.size v' → f u v = f u v' := by
  simp only [List.mem_cons, List.not_mem_nil, or_false] at hi
  rcases hi with rfl | rfl | rfl
  · exact ⟨_, exec_vsll ww rD rA rB, fun u v v' h => by rw [sllLane, sllLane, h]⟩
  · exact ⟨_, exec_vsrl ww rD rA rB, fun u v v' h => by rw [srlLane, srlLane, h]⟩
  · exact ⟨_, exec_vsra ww rD rA rB, fun u v v' h => by rw [sraLane, sraLane, h]⟩

/-- The results of a lane operation are equal when they are equal lane by lane. -/
theorem zipLanes_congr {ww : Width} {f : Nat → Nat → Nat} {a b b' : Word}
    (h : ∀ k, k < ww.lanes →
      f (lane a ww.size k) (lane b ww.size k) = f (lane a ww.size k) (lane b' ww.size k)) :
    zipLanes ww f a b = zipLanes ww f a b' :=
  eq_of_lanes ww fun k hk => by
    rw [lane_zipLanes ww f a b k hk, lane_zipLanes ww f a b' k hk, h k hk]

/-- Settles O38: the amounts agree modulo the size, and `exec_shift` says that no shift reads
more. -/
theorem onlyTheLowAmountBitsMatter : Obligations.OnlyTheLowAmountBitsMatter := by
  intro ww rD rA rB s s1 s2 s' s1' s2' a b b' hA hB hA' hB' hb
  rw [← ww.size_eq_two_pow] at hb
  refine ⟨ww.size_eq_two_pow, fun i hi => ?_⟩
  obtain ⟨f, hexec, hamount⟩ := exec_shift hi
  have hsame : zipLanes ww f a b = zipLanes ww f a b' :=
    zipLanes_congr fun k hk => hamount _ _ _ (hb k hk)
  obtain ⟨t, ht, hgives⟩ := twoSourceOp_completes (zipLanes ww f) rD hA hB
  obtain ⟨t', ht', hgives'⟩ := twoSourceOp_completes (zipLanes ww f) rD hA' hB'
  exact ⟨t, t', _, (hexec s).trans ht, (hexec s').trans ht', hgives, hsame ▸ hgives'⟩

/-! ### A lane of a shift's result (rules R71 to R73) -/

section Lanes
variable {ww : Width} (a b : Word)

theorem lane_zipLanes_sllLane {k : Nat} (hk : k < ww.lanes) :
    lane (zipLanes ww (sllLane ww.size) a b) ww.size k =
      (lane a ww.size k * 2 ^ (lane b ww.size k % ww.size)) % 2 ^ ww.size := by
  rw [lane_zipLanes ww _ a b k hk, sllLane, shiftAmount, Nat.mod_mod]

/-- A lane shifted right is no larger than the lane, so it needs no narrowing. -/
theorem lane_zipLanes_srlLane {k : Nat} (hk : k < ww.lanes) :
    lane (zipLanes ww (srlLane ww.size) a b) ww.size k =
      lane a ww.size k / 2 ^ (lane b ww.size k % ww.size) := by
  rw [lane_zipLanes ww _ a b k hk, srlLane, shiftAmount,
    Nat.mod_eq_of_lt ((Nat.div_le_self _ _).trans_lt (lane_lt a ww.size k))]

end Lanes

/-- Shifting in copies of the sign bit is the floor of the signed quotient, modulo 2^size: a
negative lane u stands for u - 2^size, whose quotient is u / 2^s - 2^(size - s), and the s copies
are worth 2^size - 2^(size - s) (rule R73). -/
theorem sraLane_emod {size : Nat} (hsize : 0 < size) (u v : Nat) :
    (sraLane size u v : Int) % 2 ^ size =
      Int.fdiv (signedLane size u) (2 ^ (v % size)) % 2 ^ size := by
  have hs : v % size ≤ size := (Nat.mod_lt v hsize).le
  rw [sraLane, shiftAmount, signedLane, Int.fdiv_eq_ediv_of_nonneg _ (by positivity)]
  generalize v % size = s at hs
  have hpow : (2 : Int) ^ size = 2 ^ (size - s) * 2 ^ s := by
    rw [← pow_add, Nat.sub_add_cancel hs]
  split
  · have hquotient : ((u : Int) - 2 ^ size) / 2 ^ s = u / 2 ^ s - 2 ^ (size - s) := by
      rw [hpow, sub_eq_add_neg, ← neg_mul, Int.add_mul_ediv_right _ _ (by positivity),
        ← sub_eq_add_neg]
    have hsign : (((2 ^ s - 1) * 2 ^ (size - s) + u / 2 ^ s : Nat) : Int) =
        u / 2 ^ s - 2 ^ (size - s) + 2 ^ size := by
      push_cast [Nat.one_le_two_pow]
      rw [hpow]
      ring
    rw [hquotient, hsign, Int.add_emod_right]
  · push_cast
    rfl

theorem lane_zipLanes_sraLane {ww : Width} (a b : Word) {k : Nat} (hk : k < ww.lanes) :
    (lane (zipLanes ww (sraLane ww.size) a b) ww.size k : Int) =
      Int.fdiv (signedLane ww.size (lane a ww.size k)) (2 ^ (lane b ww.size k % ww.size)) %
        2 ^ ww.size := by
  rw [lane_zipLanes ww _ a b k hk, ← sraLane_emod ww.size_pos]
  push_cast
  rfl

/-! ### Each shift: its layout is its word, its operand form names the operation -/

/-- Settles O39, from the operand form `exec_vsll`: what leaves a lane is lost in its narrowing. -/
theorem vsllShiftsLeft : Obligations.VsllShiftsLeft := fun ww rD rA rB =>
  decodes_and_gives_some_of_twoSource (i := .vsll ww rD rA rB) rfl (exec_vsll ww rD rA rB)
    fun a b _ hk => lane_zipLanes_sllLane a b hk

/-- Settles O40, from the operand form `exec_vsrl`. -/
theorem vsrlShiftsRight : Obligations.VsrlShiftsRight := fun ww rD rA rB =>
  decodes_and_gives_some_of_twoSource (i := .vsrl ww rD rA rB) rfl (exec_vsrl ww rD rA rB)
    fun a b _ hk => lane_zipLanes_srlLane a b hk

/-- Settles O41, from the operand form `exec_vsra`: the model enters sign copies, and `sraLane_emod`
says that this is the floor of the signed quotient. -/
theorem vsraShiftsRightArithmetic : Obligations.VsraShiftsRightArithmetic := fun ww rD rA rB =>
  decodes_and_gives_some_of_twoSource (i := .vsra ww rD rA rB) rfl (exec_vsra ww rD rA rB)
    fun a b _ hk => lane_zipLanes_sraLane a b hk

/-! ### The exchange of halves (rule R74) -/

section Halves
variable {ww : Width}

/-- The more significant half of a lane fits half the width. -/
theorem div_two_pow_half_lt {u : Nat} (hu : u < 2 ^ ww.size) :
    u / 2 ^ (ww.size / 2) < 2 ^ (ww.size / 2) := by
  rwa [Nat.div_lt_iff_lt_mul (Nat.two_pow_pos _), ← pow_add, ww.half_size_add_half_size]

theorem swapHalves_div {u : Nat} (hu : u < 2 ^ ww.size) :
    swapHalves ww.size u / 2 ^ (ww.size / 2) = u % 2 ^ (ww.size / 2) := by
  rw [swapHalves, Nat.mul_comm, Nat.mul_add_div (Nat.two_pow_pos _),
    Nat.div_eq_of_lt (div_two_pow_half_lt hu), Nat.add_zero]

theorem swapHalves_mod {u : Nat} (hu : u < 2 ^ ww.size) :
    swapHalves ww.size u % 2 ^ (ww.size / 2) = u / 2 ^ (ww.size / 2) := by
  rw [swapHalves, Nat.mul_add_mod', Nat.mod_eq_of_lt (div_two_pow_half_lt hu)]

/-- The exchanged lane is a lane: its more significant half fits half the width. -/
theorem swapHalves_lt {u : Nat} (hu : u < 2 ^ ww.size) : swapHalves ww.size u < 2 ^ ww.size := by
  have hhalf : swapHalves ww.size u / 2 ^ (ww.size / 2) < 2 ^ (ww.size / 2) :=
    swapHalves_div hu ▸ Nat.mod_lt _ (Nat.two_pow_pos _)
  rwa [Nat.div_lt_iff_lt_mul (Nat.two_pow_pos _), ← pow_add, ww.half_size_add_half_size] at hhalf

theorem swapHalves_swapHalves {u : Nat} (hu : u < 2 ^ ww.size) :
    swapHalves ww.size (swapHalves ww.size u) = u := by
  rw [swapHalves, swapHalves_mod hu, swapHalves_div hu, Nat.div_add_mod']

theorem lane_mapLanes_swapHalves (a : Word) {k : Nat} (hk : k < ww.lanes) :
    lane (mapLanes ww (swapHalves ww.size) a) ww.size k =
      swapHalves ww.size (lane a ww.size k) := by
  rw [lane_mapLanes ww _ a k hk, Nat.mod_eq_of_lt (swapHalves_lt (lane_lt a ww.size k))]

/-- Exchanging the halves of every lane twice restores the register. -/
theorem mapLanes_swapHalves_mapLanes_swapHalves (a : Word) :
    mapLanes ww (swapHalves ww.size) (mapLanes ww (swapHalves ww.size) a) = a :=
  eq_of_lanes ww fun k hk => by
    rw [lane_mapLanes_swapHalves _ hk, lane_mapLanes_swapHalves _ hk,
      swapHalves_swapHalves (lane_lt a ww.size k)]

end Halves

/-- What is hardwired stays so: the parameters have not changed. -/
theorem GivesRegister.hardwired {s t : State} {rD : RegNum} {v : Word} {draws : Nat}
    (h : GivesRegister s t rD v draws) (r : RegNum) : t.hardwired r = s.hardwired r := by
  rw [State.hardwired, h.parameters, State.hardwired]

/-- An ordinary destination is read as the value it has been given (rules R11, R114). -/
theorem GivesRegister.readReg_dest {s t : State} {rD : RegNum} {v : Word} {draws : Nat}
    (h : GivesRegister s t rD v draws) (hD : s.hardwired rD = false) : t.readReg rD = (v, t) := by
  have hreg : t.reg rD = v := (h.regs rD).trans (if_pos ⟨rfl, hD⟩)
  have hwritten : t.isWritten rD = true := (h.written rD).trans (if_pos ⟨rfl, hD⟩)
  obtain ⟨-, hread, -⟩ := registerReads t rD
  rw [hread ((h.hardwired rD).trans hD) hwritten, hreg]

/-- Settles O42: the lanes by `swapHalves_div` and `swapHalves_mod`; a second vrtth reads the first
one's result, and `swapHalves_swapHalves` restores each lane. -/
theorem vrtthExchangesHalves : Obligations.VrtthExchangesHalves := by
  intro ww rD rA
  obtain ⟨hdecode, hfirst⟩ :=
    decodes_and_gives_of_oneSource (i := .vrtth ww rD rA) rfl (exec_vrtth ww rD rA)
  refine ⟨hdecode, fun s s1 a hA => ?_⟩
  obtain ⟨t, ht, hgives⟩ := hfirst s s1 a hA
  refine ⟨t, _, ht, hgives, fun k hk => ?_, fun hD => ?_⟩
  · rw [lane_mapLanes_swapHalves a hk]
    exact ⟨swapHalves_div (lane_lt a ww.size k), swapHalves_mod (lane_lt a ww.size k)⟩
  · obtain ⟨u, hu, hgives'⟩ := oneSourceOp_completes (mapLanes ww (swapHalves ww.size)) rD
      (hgives.readReg_dest hD)
    refine ⟨u, (exec_vrtth ww rD rD t).trans hu, ?_⟩
    rw [hgives'.regs, if_pos ⟨rfl, (hgives.hardwired rD).trans hD⟩,
      mapLanes_swapHalves_mapLanes_swapHalves]

end Sys2Proof.Machine
end

/-! The quotients, remainders, squares and roots: the lane each operation computes, and what a zero
divisor does to its lane (43_divide_square_sqrt.md rules R75 to R80). -/
section

namespace Sys2Proof

theorem Width.size_le (ww : Width) : ww.size ≤ 64 := by cases ww <;> decide

end Sys2Proof

namespace Sys2Proof.Machine

/-! ### The quotient and the remainder of a lane (rules R75 to R77) -/

section DivMod
variable (size u : Nat) {d : Nat}

theorem divLane_zero :
    divLane size u 0 = (Config.divuZero size (BitVec.ofNat size u)).toNat := if_pos rfl

theorem divLane_of_ne_zero (h : d ≠ 0) : divLane size u d = u / d := if_neg h

theorem modLane_zero :
    modLane size u 0 = (Config.moduZero size (BitVec.ofNat size u)).toNat := if_pos rfl

theorem modLane_of_ne_zero (h : d ≠ 0) : modLane size u d = u % d := if_neg h

end DivMod

section Narrow
variable {size u : Nat} (hu : u < 2 ^ size) (d : Nat)
include hu

/-- A quotient fits the dividend's lane; DIVU_ZERO fits by its type. -/
theorem divLane_lt : divLane size u d < 2 ^ size := by
  rcases eq_or_ne d 0 with rfl | hd
  · rw [divLane_zero]
    exact BitVec.isLt _
  · rw [divLane_of_ne_zero size u hd]
    exact (Nat.div_le_self u d).trans_lt hu

/-- A remainder fits the dividend's lane; MODU_ZERO fits by its type. -/
theorem modLane_lt : modLane size u d < 2 ^ size := by
  rcases eq_or_ne d 0 with rfl | hd
  · rw [modLane_zero]
    exact BitVec.isLt _
  · rw [modLane_of_ne_zero size u hd]
    exact (Nat.mod_le u d).trans_lt hu

end Narrow

section Lanes
variable {ww : Width} (a b : Word) {k : Nat} (hk : k < ww.lanes)
include hk

theorem lane_zipLanes_divLane : lane (zipLanes ww (divLane ww.size) a b) ww.size k =
    divLane ww.size (lane a ww.size k) (lane b ww.size k) := by
  rw [lane_zipLanes ww _ a b k hk, Nat.mod_eq_of_lt (divLane_lt (lane_lt a ww.size k) _)]

theorem lane_zipLanes_modLane : lane (zipLanes ww (modLane ww.size) a b) ww.size k =
    modLane ww.size (lane a ww.size k) (lane b ww.size k) := by
  rw [lane_zipLanes ww _ a b k hk, Nat.mod_eq_of_lt (modLane_lt (lane_lt a ww.size k) _)]

end Lanes

/-- Settles O43, from the operand form `exec_vdivu`: the lane is `divLane` of the operands' lanes. -/
theorem vdivuDividesLanes : Obligations.VdivuDividesLanes := fun ww rD rA rB =>
  decodes_and_gives_some_of_twoSource (i := .vdivu ww rD rA rB) rfl (exec_vdivu ww rD rA rB)
    fun a b k hk => by rw [lane_zipLanes_divLane a b hk, divLane, ite_not]

/-- Settles O44, from the operand form `exec_vmodu`: the lane is `modLane` of the operands' lanes,
which completes the quotient by the division algorithm. -/
theorem vmoduTakesRemainders : Obligations.VmoduTakesRemainders := fun ww rD rA rB =>
  decodes_and_gives_some_of_twoSource (i := .vmodu ww rD rA rB) rfl (exec_vmodu ww rD rA rB)
    fun a b k hk => by
      rw [lane_zipLanes_modLane a b hk]
      refine ⟨by rw [modLane, ite_not], fun hd => ?_⟩
      rw [modLane_of_ne_zero _ _ hd]
      exact ⟨Nat.mod_lt _ (Nat.pos_of_ne_zero hd), (Nat.div_add_mod' _ _).symm⟩

/-- Settles O45: each execution completes by `twoSourceOp_completes`, and `divLane` and `modLane`
see no more than one lane of either operand. -/
theorem divisionByZeroStaysInItsLane : Obligations.DivisionByZeroStaysInItsLane := by
  intro ww rD rA rB rD' rA' rB' s s1 s2 s' s1' s2' a b a' b' hA hB hA' hB'
  obtain ⟨tq, hq, hgq⟩ := twoSourceOp_completes (zipLanes ww (divLane ww.size)) rD hA hB
  obtain ⟨tr, hr, hgr⟩ := twoSourceOp_completes (zipLanes ww (modLane ww.size)) rD hA hB
  obtain ⟨tq', hq', hgq'⟩ := twoSourceOp_completes (zipLanes ww (divLane ww.size)) rD' hA' hB'
  obtain ⟨tr', hr', hgr'⟩ := twoSourceOp_completes (zipLanes ww (modLane ww.size)) rD' hA' hB'
  rw [← exec_vdivu] at hq hq'
  rw [← exec_vmodu] at hr hr'
  refine ⟨tq, _, tr, _, tq', _, tr', _, hq, hgq, hr, hgr, hq', hgq', hr', hgr', fun k hk => ?_⟩
  rw [lane_zipLanes_divLane a b hk, lane_zipLanes_modLane a b hk, lane_zipLanes_divLane a' b' hk,
    lane_zipLanes_modLane a' b' hk]
  refine ⟨fun hzero => ?_, fun hd => ⟨divLane_of_ne_zero _ _ hd, modLane_of_ne_zero _ _ hd⟩,
    fun ha hb => ?_⟩
  · rw [hzero]
    exact ⟨divLane_zero _ _, modLane_zero _ _⟩
  · rw [ha, hb]
    exact ⟨rfl, rfl⟩

/-! ### The squares (rules R78, R79) -/

/-- A well-formed one-source instruction is decoded from its word and gives rD a value that has every
property `P` that its operation's results have. -/
theorem decodes_and_gives_some_of_oneSource {i : Instr} {rD rA : RegNum} {f : Word → Word}
    {P : Word → Word → Prop} (hw : i.wellFormed = true)
    (he : ∀ s, exec i s = oneSourceOp f rD rA s) (hP : ∀ a, P a (f a)) :
    decode (encode i) = .ok i ∧
    ∀ (s s1 : State) (a : Word), s.readReg rA = (a, s1) →
      ∃ t v, exec i s = .next t ∧ GivesRegister s t rD v s1.draws ∧ P a v := by
  obtain ⟨hdecode, hgives⟩ := decodes_and_gives_of_oneSource hw he
  refine ⟨hdecode, fun s s1 a hA => ?_⟩
  obtain ⟨t, ht, hframe⟩ := hgives s s1 a hA
  exact ⟨t, f a, ht, hframe, hP a⟩

/-- A held register read twice answers the same value, so an operation of it with itself is a
one-source operation. -/
theorem oneSourceOp_eq_twoSourceOp_of_holds {s : State} {r : RegNum} (h : s.holds r = true)
    (f : Word → Word → Word) (rD : RegNum) :
    oneSourceOp (fun a => f a a) rD r s = twoSourceOp f rD r r s :=
  (oneSourceOp_ok (State.readReg_of_holds h)).1.trans
    (twoSourceOp_ok (State.readPair_of_holds h h)).1.symm

/-- A well-formed one-source instruction whose operation is a two-source operation of one value with
itself: it is decoded from its word, gives rD a value with every property `P` of that result, and
does what the two-source instruction `m` does with a held register named twice. -/
theorem decodes_and_gives_some_of_self {i m : Instr} {rD rA : RegNum} {f : Word → Word → Word}
    {P : Word → Word → Prop} (hw : i.wellFormed = true)
    (hi : ∀ s, exec i s = oneSourceOp (fun a => f a a) rD rA s)
    (hm : ∀ s, exec m s = twoSourceOp f rD rA rA s) (hP : ∀ a, P a (f a a)) :
    decode (encode i) = .ok i ∧
    ∀ (s s1 : State) (a : Word), s.readReg rA = (a, s1) →
      (∃ t v, exec i s = .next t ∧ GivesRegister s t rD v s1.draws ∧ P a v) ∧
      (s.holds rA = true → exec i s = exec m s) := by
  obtain ⟨hdecode, hgives⟩ := decodes_and_gives_some_of_oneSource hw hi hP
  refine ⟨hdecode, fun s s1 a hA => ⟨hgives s s1 a hA, fun hholds => ?_⟩⟩
  rw [hi, hm, oneSourceOp_eq_twoSourceOp_of_holds hholds]

/-- Settles O46, from the operand forms `exec_vsqeu` and `exec_vmuleu`, which every width but d
has. -/
theorem vsqeuSquaresEvenLanes : Obligations.VsqeuSquaresEvenLanes := fun ww rD rA hne =>
  have hw : ww.hasDouble = true := Width.hasDouble_of_ne_d hne
  decodes_and_gives_some_of_self (i := .vsqeu ww rD rA) (m := .vmuleu ww rD rA rA) hw
    (fun s => exec_vsqeu ww rD rA s hw) (fun s => exec_vmuleu ww rD rA rA s hw)
    fun a _ hj => (lane_zipEven_mul a a hw hj).trans (sq _).symm

/-- Settles O47, from the operand forms `exec_vsqou` and `exec_vmulou`, which every width but d
has. -/
theorem vsqouSquaresOddLanes : Obligations.VsqouSquaresOddLanes := fun ww rD rA hne =>
  have hw : ww.hasDouble = true := Width.hasDouble_of_ne_d hne
  decodes_and_gives_some_of_self (i := .vsqou ww rD rA) (m := .vmulou ww rD rA rA) hw
    (fun s => exec_vsqou ww rD rA s hw) (fun s => exec_vmulou ww rD rA rA s hw)
    fun a _ hj => (lane_zipOdd_mul a a hw hj).trans (sq _).symm

/-! ### The roots (rule R80) -/

section Roots
variable {ww : Width} (a : Word) (k : Nat)

/-- The search for a root has bits enough for a lane of every width. -/
theorem isqrt_lane_spec :
    isqrt (lane a ww.size k) * isqrt (lane a ww.size k) ≤ lane a ww.size k ∧
      lane a ww.size k < (isqrt (lane a ww.size k) + 1) * (isqrt (lane a ww.size k) + 1) :=
  isqrt_spec _ ((lane_lt a ww.size k).trans_le (Nat.pow_le_pow_right two_pos ww.size_le))

/-- The root of a lane fits half the width: its square fits the lane. -/
theorem isqrt_lane_lt_half : isqrt (lane a ww.size k) < 2 ^ (ww.size / 2) := by
  have hsquare : isqrt (lane a ww.size k) * isqrt (lane a ww.size k) < 2 ^ ww.size :=
    (isqrt_lane_spec a k).1.trans_lt (lane_lt a ww.size k)
  rwa [← ww.half_size_add_half_size, pow_add, Nat.mul_self_lt_mul_self_iff,
    ww.half_size_add_half_size] at hsquare

/-- A root is no larger than its lane, so it needs no narrowing. -/
theorem lane_mapLanes_isqrt {k : Nat} (hk : k < ww.lanes) :
    lane (mapLanes ww isqrt a) ww.size k = isqrt (lane a ww.size k) := by
  have hroot : isqrt (lane a ww.size k) ≤ lane a ww.size k :=
    (Nat.le_mul_self _).trans (isqrt_lane_spec a k).1
  rw [lane_mapLanes ww _ a k hk, Nat.mod_eq_of_lt (hroot.trans_lt (lane_lt a ww.size k))]

end Roots

/-- Settles O48, from the operand form `exec_vsqrtu`: the lane is the `isqrt` of the operand's lane,
whose square `isqrt_spec` bounds on both sides. -/
theorem vsqrtuTakesFloorRoots : Obligations.VsqrtuTakesFloorRoots := fun ww rD rA =>
  decodes_and_gives_some_of_oneSource (i := .vsqrtu ww rD rA) rfl (exec_vsqrtu ww rD rA)
    fun a k hk => by
      rw [lane_mapLanes_isqrt a hk]
      obtain ⟨hbelow, habove⟩ := isqrt_lane_spec (ww := ww) a k
      exact ⟨hbelow, habove, isqrt_lane_lt_half a k⟩

end Sys2Proof.Machine
end

/-! What a load and a store leave: their layouts, results, frames and faults (44_load_store.md rules
R82, R83, 20_memory.md rule R24). -/
section

namespace Sys2Proof.Machine

/-- Storing a word and advancing, after a read that changed the draw counter at most. -/
theorem State.givesDataWord {s s1 : State} (h : s.SameButDraws s1) (a : Nat) (v : Word) :
    GivesDataWord s (s1.storeWord a v).advance a v s1.draws := by
  refine ⟨fun r => ?_, fun r => ?_, ?_, ?_, fun x hx => ?_, fun x => ?_, ?_, ?_, ?_⟩
  · rw [State.advance_reg, State.storeWord_reg, h.reg]
  · rw [State.advance_isWritten, State.storeWord_isWritten, h.isWritten]
  · rw [State.advance_pc, State.storeWord_pc, State.storeWord_cfg, h.pc, h.cfg]
  · rw [State.dataWord_congr (State.advance_dmem _), State.dataWord_storeWord, if_pos rfl]
  · rw [State.advance_dmem, State.storeWord_dmem, Memory.readByte_writeBE_ne _ _ _ _ _ hx, h.dmem]
  · rw [State.advance_imem, State.storeWord_imem, h.imem]
  · rw [State.advance_imemWords, State.storeWord_imemWords, h.imemWords]
  · rw [State.advance_cfg, State.storeWord_cfg, h.cfg]
  · rw [State.advance_draws, State.storeWord_draws]

/-- Settles O51: the completion by `exec_vsd_of_inside`, the frame by `State.givesDataWord`, the
fault by `exec_vsd_of_outside`. -/
theorem vsdStoresTheRegister : Obligations.VsdStoresTheRegister := by
  refine fun rD imm => ⟨decodeOfEncodeIsTheInstruction (.vsd rD imm) rfl, fun s s1 v hread => ?_⟩
  rw [effectiveAddress_toNat]
  exact ⟨fun hin => ⟨_, exec_vsd_of_inside rD hin hread,
    State.givesDataWord (State.sameButDraws_of_readReg hread) _ v⟩, exec_vsd_of_outside rD⟩

/-- Settles O50, case by case: a word with a value (`exec_vld_of_dataWord`), a drawn one
(`exec_vld_of_draw`), one that may not be read (`exec_vld_of_no_value`) and one outside the memory
(`exec_vld_of_outside`); the frame of the first two is `State.givesRegister`. -/
theorem vldLoadsTheWord : Obligations.VldLoadsTheWord := by
  refine fun rD imm => ⟨decodeOfEncodeIsTheInstruction (.vld rD imm) rfl, fun s => ?_⟩
  have hsame : s.SameButDraws s := rfl
  have hdraw : s.SameButDraws s.draw.2 := rfl
  rw [effectiveAddress_toNat]
  refine ⟨fun hin => ⟨fun v hv => ?_, fun hnone hu => ?_, exec_vld_of_no_value rD hin⟩,
    exec_vld_of_outside rD⟩
  · exact ⟨_, exec_vld_of_dataWord rD hin hv, State.givesRegister hsame rD v⟩
  · exact ⟨_, exec_vld_of_draw rD hin hnone hu, State.givesRegister hdraw rD _⟩

end Sys2Proof.Machine
end

/-! Where control goes: the branches and their targets, and the instruction that only advances
(45_branch_nop.md rules R85 to R89). -/
section

namespace Sys2Proof.Machine

/-- The target is the immediate with sixteen zeros before it (rules R14, R86). -/
theorem branchTarget_eq_append (imm : Imm16) : branchTarget imm = .at (0#16 ++ imm) :=
  congrArg Pc.at (BitVec.setWidth_eq_append (by decide))

/-- A branch's layout decodes to it; it completes, and sets nothing but the pc and what its read may
draw (rules R37, R86). -/
theorem decodes_and_gives_of_branch {i : Instr} {cond : Word → Bool} {rD : RegNum} {imm : Imm16}
    (hw : i.wellFormed = true) (he : ∀ s, exec i s = branchOp cond rD imm s) :
    decode (encode i) = .ok i ∧
    ∀ (s s1 : State) (v : Word), s.readReg rD = (v, s1) →
      ∃ t, exec i s = .next t ∧
        GivesPc s t (if cond v then .at (0#16 ++ imm) else s.pc.next s.cfg.pcStep) s1.draws := by
  refine ⟨decodeOfEncodeIsTheInstruction i hw, fun s s1 v hread => ?_⟩
  rw [he, ← branchTarget_eq_append]
  exact branchOp_ok hread

/-- A word is the encoding of what it decodes to, and vnop has one encoding (rule R89). -/
theorem decode_eq_vnop_iff (w : InstrWord) : decode w = .ok .vnop ↔ w = 0xF0000000#32 := by
  constructor
  · intro h
    exact (encode_of_decode h).symm
  · rintro rfl
    exact decodeOfEncodeIsTheInstruction .vnop rfl

/-- Settles O56: the word by `decode_eq_vnop_iff`, the frame by `State.givesPc` with no read before
it. -/
theorem vnopOnlyAdvances : Obligations.VnopOnlyAdvances := by
  refine ⟨decode_eq_vnop_iff, fun s => ⟨s.advance, exec_vnop s, ?_⟩⟩
  have hsame : s.SameButDraws s := rfl
  exact State.givesPc hsame (s.pc.next s.cfg.pcStep)

/-- Settles O57, by `Effect.pc`: the pc is elsewhere than at the advance only at the target the
instruction has. -/
theorem onlyBranchesTransferControl : Obligations.OnlyBranchesTransferControl := by
  intro i s t h
  rcases (exec_cases h).pc with hnext | ⟨imm, himm, hpc⟩
  · exact ⟨fun _ => hnext, fun _ _ => .inl hnext⟩
  · refine ⟨fun hnone => ?_, fun imm' himm' => .inr ?_⟩
    · rw [hnone] at himm
      cases himm
    · obtain rfl : imm = imm' := Option.some.inj (himm.symm.trans himm')
      rw [hpc, branchTarget_eq_append]

/-- Settles O54, by `decodes_and_gives_of_branch`: the condition tested is equality with zero. -/
theorem vbeqBranchesOnZero : Obligations.VbeqBranchesOnZero := by
  intro rD imm
  have hbranch := decodes_and_gives_of_branch (i := .vbeq rD imm) rfl (exec_vbeq rD imm)
  simp only [beq_iff_eq] at hbranch
  exact hbranch

/-- Settles O55, by `decodes_and_gives_of_branch`: the condition tested is the negation, so the two
arms change places. -/
theorem vbneqBranchesOnNonzero : Obligations.VbneqBranchesOnNonzero := by
  intro rD imm
  have hbranch := decodes_and_gives_of_branch (i := .vbneq rD imm) rfl (exec_vbneq rD imm)
  simp only [bne_iff_ne, ne_eq, ite_not] at hbranch
  exact hbranch

end Sys2Proof.Machine
end

/-! The order of the faults and what completes (60_exceptions.md rules R100 to R104, R113). -/
section

namespace Sys2Proof.Machine

/-- Settles O23: an instruction completes or stops as `Stops` says, and each way to stop contradicts
a hypothesis. The word without a value is a load's, since vsd has a store address. -/
theorem everyInstructionCompletes : Obligations.EveryInstructionCompletes := by
  intro i s hw hin hvalue
  rcases exec_next_or_stops i s with hnext | ⟨f, -, ⟨hnot, -⟩ | ⟨imm, haddr, -, hstop⟩⟩
  · exact hnext
  · simp [hw] at hnot
  · obtain ⟨hstore, hnone, hfault⟩ := hstop.resolve_left (hin imm haddr).not_ge
    obtain ⟨rD, rfl | rfl⟩ := Instr.dataAddress_eq_some haddr
    · rcases hvalue rD imm rfl with hsome | hdraw
      · exact absurd hnone hsome
      · simp [hfault] at hdraw
    · cases hstore

/-- Settles O11, in the order of `step`: the fetch, the decoder (`step_of_reserved`), then `exec` of
the decoded instruction (`step_of_decode`), which completes without a data address (O23) and stops at
one outside the memory (`exec_of_stops`). -/
theorem faultsComeInOrder : Obligations.FaultsComeInOrder := by
  intro s
  refine ⟨fun a hfetch => ?_, fun w d hw hd => ?_, fun w i hw hd hnone => ?_,
    fun w i imm hw hd haddr hout => ?_⟩
  · simp only [step, hfetch, raise]
  · exact step_of_reserved hw fun i hi => by cases hi.symm.trans hd
  · rw [step_of_decode hw hd]
    refine everyInstructionCompletes i s (wellFormed_of_decode hd) (fun imm haddr => ?_)
      fun rD imm hi => ?_
    · cases hnone.symm.trans haddr
    · subst hi
      cases hnone
  · rw [step_of_decode hw hd]
    exact exec_of_stops (.inr ⟨imm, haddr, rfl, .inl hout⟩)

end Sys2Proof.Machine
end

/-! What the host's loads leave: the placed image is fetched up to its end and the machine starts in
the invariant with the data the image names (70_reset_and_hazards.md rules R120 to R126). -/
section

namespace Sys2Proof

theorem PcStep.toNat_pos (st : PcStep) : 0 < st.toNat := by cases st <;> decide

end Sys2Proof

namespace Sys2Proof.Machine

/-! ### The end of a run (rule R126) -/

/-- Away from END_PC no step is refused: a decoded instruction completes or faults, and a reserved
word or a missing one faults. -/
theorem step_ne_refused {s : State} (hend : s.pc.toNat ≠ s.endPc) (r : Refusal) :
    step s ≠ .refused r := by
  by_cases hw : ∃ w, s.fetch = .word w
  · obtain ⟨w, hw⟩ := hw
    cases hd : decode w with
    | ok i => rw [step_of_decode hw hd]; exact exec_ne_refused i s r
    | error e => rw [step_of_reserved hw (by simp [hd])]; nofun
  · rw [step_of_no_word hend (not_exists.mp hw)]; nofun

/-- Settles O10: `step_at_endPc`, and `step_ne_refused` everywhere else. -/
theorem runEndsExactlyAtEndPc : Obligations.RunEndsExactlyAtEndPc :=
  fun _ => ⟨fun h => by_contra fun hend => step_ne_refused hend _ h, step_at_endPc⟩

/-! ### The instruction image (rules R26, R124) -/

theorem State.fetch_eq_endOfRun {s : State} (h : s.pc.toNat = s.endPc) : s.fetch = .endOfRun := by
  rw [State.fetch, if_pos h]

theorem State.fetch_eq_noInstruction {s : State} (hend : s.pc.toNat ≠ s.endPc)
    (h : ¬ (s.pc.toNat % s.cfg.pcStep.toNat = 0 ∧ s.pc.toNat / s.cfg.pcStep.toNat < s.imemWords)) :
    s.fetch = .noInstruction s.pc.toNat := by
  rw [State.fetch, if_neg hend, if_neg fun ⟨_, hmod, hin⟩ => h ⟨hmod, hin⟩]

section Image
variable {s : State} {k : Nat}

theorem State.pc_mod_of_eq_mul (hpc : s.pc.toNat = k * s.cfg.pcStep.toNat) :
    s.pc.toNat % s.cfg.pcStep.toNat = 0 := by
  rw [hpc, Nat.mul_mod_left]

theorem State.pc_div_of_eq_mul (hpc : s.pc.toNat = k * s.cfg.pcStep.toNat) :
    s.pc.toNat / s.cfg.pcStep.toNat = k := by
  rw [hpc, Nat.mul_div_cancel _ s.cfg.pcStep.toNat_pos]

theorem State.pc_ne_endPc_of_eq_mul (hpc : s.pc.toNat = k * s.cfg.pcStep.toNat)
    (hk : k ≠ s.imemWords) : s.pc.toNat ≠ s.endPc := fun hend =>
  hk (Nat.eq_of_mul_eq_mul_right s.cfg.pcStep.toNat_pos (hpc.symm.trans hend))

end Image

/-- Settles O17: a fetch at `k * PC_STEP` looks for word k (`State.instrWord_loadProgram`), and
END_PC, being such a multiple itself, is no misaligned address. -/
theorem programImageIsFetched : Obligations.ProgramImageIsFetched := by
  intro s ws a k
  set t : State := { s.loadProgram ws with pc := .at a }
  have hword : ∀ j, t.instrWord j = ws[j]? := s.instrWord_loadProgram ws
  refine ⟨fun (hpc : t.pc.toNat = k * t.cfg.pcStep.toNat) => ⟨fun w hw => ?_, ?_, fun hk => ?_⟩,
    fun (hmod : t.pc.toNat % t.cfg.pcStep.toNat ≠ 0) => ?_⟩
  · have hk : k < t.imemWords := (List.getElem?_eq_some_iff.mp hw).1
    have hdiv := State.pc_div_of_eq_mul hpc
    refine State.fetch_eq_word (State.pc_ne_endPc_of_eq_mul hpc hk.ne) a.isLt
      (State.pc_mod_of_eq_mul hpc) (hdiv ▸ hk) ?_
    rw [hdiv, hword, hw]
  · rintro rfl
    exact State.fetch_eq_endOfRun hpc
  · refine State.fetch_eq_noInstruction (State.pc_ne_endPc_of_eq_mul hpc hk.ne') fun ⟨_, hin⟩ => ?_
    rw [State.pc_div_of_eq_mul hpc] at hin
    exact hin.not_gt hk
  · exact State.fetch_eq_noInstruction (fun hend => hmod (hend ▸ t.endPc_mod_pcStep))
      fun ⟨h0, _⟩ => hmod h0

/-! ### The data image (rule R125) -/

/-- Placing a data image does not reach a word it does not name. -/
theorem State.dataWord_loadDataImage_of_not_mem (s : State) {ds : List (Nat × Word)} {a : Nat}
    (h : a ∉ ds.map Prod.fst) : (s.loadDataImage ds).dataWord a = s.dataWord a := by
  induction ds generalizing s with
  | nil => rfl
  | cons d ds ih =>
    obtain ⟨b, v⟩ := d
    obtain ⟨hab, hds⟩ := List.ne_and_not_mem_of_not_mem_cons h
    rw [State.loadDataImage]
    split
    · rw [ih _ hds, State.dataWord_storeWord, if_neg hab]
    · exact ih s hds

/-- A word a data image names once has the image's value: the later pairs leave it. -/
theorem State.dataWord_loadDataImage_of_mem {s : State} {ds : List (Nat × Word)} {a : Nat}
    {v : Word} (hin : ∀ p ∈ ds, p.1 < s.cfg.dmemWords) (hnodup : (ds.map Prod.fst).Nodup)
    (hmem : (a, v) ∈ ds) : (s.loadDataImage ds).dataWord a = some v := by
  induction ds generalizing s with
  | nil => cases hmem
  | cons d ds ih =>
    obtain ⟨b, u⟩ := d
    obtain ⟨hb, hds⟩ := List.forall_mem_cons.mp hin
    obtain ⟨hnot, hnodup⟩ := List.nodup_cons.mp hnodup
    rw [State.loadDataImage, if_pos hb]
    rcases List.mem_cons.mp hmem with heq | hmem
    · cases heq
      rw [State.dataWord_loadDataImage_of_not_mem _ hnot, State.dataWord_storeWord, if_pos rfl]
    · exact ih hds hnodup hmem

/-- Settles O18: the start's data memory is the empty one with the image placed. -/
theorem dataImageIsLoaded : Obligations.DataImageIsLoaded := fun _ _ _ hin hnodup =>
  ⟨fun _ _ hmem => State.dataWord_loadDataImage_of_mem hin hnodup hmem,
    fun _ hnot => State.dataWord_loadDataImage_of_not_mem _ hnot⟩

/-! ### The start of a run (rules R120, R123) -/

/-- Placing a data image keeps the data in whole implemented words: a pair outside the memory places
nothing. -/
theorem State.dataInWords_loadDataImage {s : State} (h : s.dataInWords) (ds : List (Nat × Word)) :
    (s.loadDataImage ds).dataInWords := by
  induction ds generalizing s with
  | nil => exact h
  | cons d ds ih =>
    obtain ⟨a, v⟩ := d
    rw [State.loadDataImage]
    split
    · next ha => exact ih (State.dataInWords_storeWord h v ha)
    · exact ih h

/-- Placing a data image keeps the invariant, since it changes the data memory alone. -/
theorem State.Inv.loadDataImage {s : State} (h : s.Inv) (ds : List (Nat × Word)) :
    (s.loadDataImage ds).Inv := by
  have hcanonical := (s.loadDataImage_spec ds).2 h.dataCanonical
  have hwhole := State.dataInWords_loadDataImage h.dataWhole ds
  obtain ⟨⟨m, hm⟩, -⟩ := s.loadDataImage_spec ds
  rw [hm] at hcanonical hwhole ⊢
  exact { h with dataCanonical := hcanonical, dataWhole := hwhole }

/-- The machine with its program placed and no data meets the invariant. -/
theorem State.inv_loadProgram_reset {cfg : Config} {ws : List InstrWord} (hcfg : cfg.wf)
    (hfits : ws.length * cfg.pcStep.toNat ≤ 2 ^ 32) :
    (({ State.reset with cfg := cfg } : State).loadProgram ws).Inv where
  parameters := hcfg
  dataCanonical := State.wf_reset.1
  programCanonical := programBytes_wf ws 0
  contiguous := readByte_programBytes_isSome ws
  imageFits := hfits
  dataWhole := ⟨fun _ _ _ => rfl, nofun⟩
  pcInReach := .inl (Nat.zero_le _)

/-- Settles O14: the program is placed first, and the data image keeps the invariant and every field
but the data memory. -/
theorem startMeetsTheInvariant : Obligations.StartMeetsTheInvariant := by
  intro cfg ws ds hcfg hfits
  refine ⟨(State.inv_loadProgram_reset hcfg hfits).loadDataImage ds, ?_⟩
  obtain ⟨⟨m, hm⟩, -⟩ :=
    State.loadDataImage_spec (({ State.reset with cfg := cfg } : State).loadProgram ws) ds
  obtain ⟨-, hregs, -⟩ := resetState
  rw [State.start, hm]
  exact ⟨rfl, rfl, fun r => (hregs r).1⟩

end Sys2Proof.Machine
end

/-! No hazards: an instruction computes the same wherever it stands (70_reset_and_hazards.md rules
R128, R129). -/
section

namespace Sys2Proof.Machine

/-- The state with another pc. -/
def State.withPc (s : State) (p : Pc) : State := { s with pc := p }

section WithPc
variable (s : State) (p : Pc)

@[simp] theorem State.withPc_pc : (s.withPc p).pc = p := rfl

@[simp] theorem State.withPc_cfg : (s.withPc p).cfg = s.cfg := rfl

@[simp] theorem State.withPc_holds (q : RegNum) : (s.withPc p).holds q = s.holds q := rfl

@[simp] theorem State.withPc_hardwired (q : RegNum) :
    (s.withPc p).hardwired q = s.hardwired q := rfl

@[simp] theorem State.withPc_dataWord (a : Nat) : (s.withPc p).dataWord a = s.dataWord a := rfl

@[simp] theorem State.withPc_outsideData (ea : BitVec 32) :
    (s.withPc p).outsideData ea = s.outsideData ea := rfl

/-- The sequential advance from another place (rule R15). -/
@[simp] theorem State.advance_withPc :
    (s.withPc p).advance = s.advance.withPc (p.next s.cfg.pcStep) := rfl

/-- A taken branch forgets where it stood (rule R14). -/
@[simp] theorem State.branchTo_withPc (imm : Imm16) :
    (s.withPc p).branchTo imm = (s.branchTo imm).withPc (branchTarget imm) := rfl

@[simp] theorem State.storeWord_withPc (a : Nat) (v : Word) :
    (s.withPc p).storeWord a v = (s.storeWord a v).withPc p := rfl

@[simp] theorem State.writeReg_withPc (rD : RegNum) (v : Word) :
    (s.withPc p).writeReg rD v = (s.writeReg rD v).withPc p := by
  rw [State.writeReg, State.writeReg, State.withPc_hardwired]
  split <;> rfl

/-- A register read answers the same, and the other pc stays. -/
@[simp] theorem State.readReg_withPc (q : RegNum) :
    (s.withPc p).readReg q = ((s.readReg q).1, (s.readReg q).2.withPc p) := by
  cases hh : s.holds q with
  | false =>
    rw [State.readReg_of_not_holds hh, State.readReg_of_not_holds ((s.withPc_holds p q).trans hh)]
    rfl
  | true =>
    rw [State.readReg_of_holds hh, State.readReg_of_holds ((s.withPc_holds p q).trans hh)]
    rfl

@[simp] theorem State.readPair_withPc (rA rB : RegNum) :
    (s.withPc p).readPair rA rB =
      ((s.readPair rA rB).1, (s.readPair rA rB).2.1, (s.readPair rA rB).2.2.withPc p) := by
  simp only [State.readPair, State.readReg_withPc]

/-- A load answers the same, and the other pc stays. -/
@[simp] theorem State.loadData_withPc (ea : BitVec 32) :
    (s.withPc p).loadData ea = (s.loadData ea).map (Prod.map id (·.withPc p)) := by
  rw [State.loadData, State.loadData, State.withPc_dataWord, State.withPc_cfg]
  cases s.dataWord ea.toNat with
  | some v => rfl
  | none => cases s.cfg.unwrittenData <;> rfl

end WithPc

section Moved
variable {s t : State} (p : Pc)

/-- A branch decides the same from another place: both advance, or both are taken. -/
theorem branchOp_withPc {cond : Word → Bool} {rD : RegNum} {imm : Imm16}
    (h : branchOp cond rD imm s = .next t) :
    ∃ q, branchOp cond rD imm (s.withPc p) = .next (t.withPc q) ∧
      ((q = p.next s.cfg.pcStep ∧ t.pc = s.pc.next s.cfg.pcStep) ∨
        (q = branchTarget imm ∧ t.pc = branchTarget imm)) := by
  obtain ⟨v, s1, hread, rfl⟩ := branchOp_next h
  have hsame := State.sameButDraws_of_readReg hread
  cases hc : cond v with
  | false =>
    refine ⟨p.next s.cfg.pcStep, ?_, .inl ⟨rfl, ?_⟩⟩
    · simp [branchOp, hread, hc, hsame.cfg]
    · simp [hsame.pc, hsame.cfg]
  | true => exact ⟨branchTarget imm, by simp [branchOp, hread, hc], .inr ⟨rfl, rfl⟩⟩

/-- An instruction that completes also completes from another place, equal in everything but the pc
(rule R128). -/
theorem exec_withPc {i : Instr} (h : exec i s = .next t) :
    ∃ q, exec i (s.withPc p) = .next (t.withPc q) := by
  cases exec_form i with
  | oneSource f rD rA _ _ he =>
    rw [he] at h
    obtain ⟨a, s1, hread, rfl⟩ := oneSourceOp_next h
    exact ⟨p.next s1.cfg.pcStep, by simp [he, oneSourceOp, hread]⟩
  | twoSource f rD rA rB _ _ he =>
    rw [he] at h
    obtain ⟨a, b, s1, hread, rfl⟩ := twoSourceOp_next h
    exact ⟨p.next s1.cfg.pcStep, by simp [he, twoSourceOp, hread]⟩
  | branch cond rD imm _ _ he =>
    rw [he] at h ⊢
    obtain ⟨q, hq, -⟩ := branchOp_withPc p h
    exact ⟨q, hq⟩
  | load rD imm hi =>
    subst hi
    obtain ⟨v, s1, hload, hin, rfl⟩ := execVld_next h
    exact ⟨p.next s1.cfg.pcStep, by simp [exec, execVld, hload, hin, Except.map]⟩
  | store rD imm hi =>
    subst hi
    obtain ⟨v, s1, hread, hin, rfl⟩ := execVsd_next h
    rw [effectiveAddress_toNat] at hin
    refine ⟨p.next s1.cfg.pcStep, ?_⟩
    rw [exec_vsd_of_inside (s := s.withPc p) rD hin (s.readReg_withPc p rD), hread]
    simp
  | nop hi => subst hi; cases h; exact ⟨p.next s.cfg.pcStep, rfl⟩
  | reserved hw => rw [exec_of_not_wellFormed hw] at h; cases h

end Moved

/-- An instruction with a target is a branch to it (rule R85). -/
theorem exec_of_target {i : Instr} {imm : Imm16} (h : i.target = some imm) :
    ∃ cond rD, ∀ s, exec i s = branchOp cond rD imm s := by
  cases i with
  | vbeq rD a => cases h; exact ⟨_, rD, exec_vbeq rD imm⟩
  | vbneq rD a => cases h; exact ⟨_, rD, exec_vbneq rD imm⟩
  | _ => cases h

/-- Settles O59: after the vnop the instruction stands one advance further, in a state that differs
in the pc alone (`exec_withPc`); without a target both pcs are the sequential advance (O57), and
with one the two branches decide alike (`branchOp_withPc`). -/
theorem vnopInsertionChangesNothing : Obligations.VnopInsertionChangesNothing := by
  intro i s n t hnop h
  obtain rfl : s.withPc (s.pc.next s.cfg.pcStep) = n := by cases hnop; rfl
  cases htarget : i.target with
  | none =>
    obtain ⟨q, hq⟩ := exec_withPc (s.pc.next s.cfg.pcStep) h
    exact ⟨_, hq, rfl, .inl ⟨(onlyBranchesTransferControl i _ _ hq).1 htarget,
      (onlyBranchesTransferControl i s t h).1 htarget⟩⟩
  | some imm =>
    obtain ⟨cond, rD, he⟩ := exec_of_target htarget
    rw [he] at h ⊢
    obtain ⟨q, hq, hpc⟩ := branchOp_withPc (s.pc.next s.cfg.pcStep) h
    exact ⟨_, hq, rfl, hpc.imp id fun ⟨hu, ht⟩ => ⟨imm, rfl, hu, ht⟩⟩

end Sys2Proof.Machine
end
